-- ==== Sys2Proof/Word.lean ====
section
/-! DEFINITION. The widths KIRC moves: bytes, nibbles, the 17-bit bus word, durations, pulse pairs, and the
16-byte protocol state. -/

namespace Sys2Proof

/-- One byte: a register, a register address, a command code (20_memory.md R60, R65). -/
abbrev Byte := BitVec 8

/-- Half a byte, the unit the checksum adds (00_scope.md R9, R11). -/
abbrev Nibble := BitVec 4

/-- One host transaction: `WE`, `ADDR`, `DATA` (30_encoding.md R80). -/
abbrev BusWord := BitVec 17

/-- A duration in microseconds, 16 bits, unsigned (00_scope.md R8, D12). -/
abbrev Micros := BitVec 16

/-- A carrier frequency in hertz, 32 bits, unsigned (00_scope.md R8, D12). -/
abbrev Hertz := BitVec 32

/-- A 16-byte protocol state, byte 0 first (10_state.md R22, R33). -/
abbrev ProtocolState := Vector Byte 16

/-- A mark and the space that follows it, the unit of `emit` and `expect` (00_scope.md R11). -/
structure PulsePair where
  markUs : Micros
  spaceUs : Micros
  deriving DecidableEq, Repr

end Sys2Proof
end

