-- ==== Sys2Proof/Syntax.lean ====
section
/-! DEFINITION. The transactions of KIRC, one constructor per row of spec/opcode_table.json. -/

namespace Sys2Proof

/-- A host transaction, decoded (30_encoding.md R83, R86). The eight commands and `cmdReserved` are writes to
`CMD` (R81); they have no operand fields (R82). -/
inductive Instr where
  /-- `NOP`, code 0x00 (40_host_access.md R103). -/
  | nop
  /-- `CLEAR`, code 0x01 (40_host_access.md R104). -/
  | clear
  /-- `CSUM0`, code 0x02 (41_integrity.md R123). -/
  | csum0
  /-- `CSUM1`, code 0x03 (41_integrity.md R124). -/
  | csum1
  /-- `VALIDATE`, code 0x04 (41_integrity.md R127). -/
  | validate
  /-- `FINALIZE`, code 0x05 (41_integrity.md R125). -/
  | finalize
  /-- `ENCODE`, code 0x06 (42_pulse_codec.md R164). -/
  | encode
  /-- `DECODE`, code 0x07 (42_pulse_codec.md R169). -/
  | decode
  /-- `CMD_RESERVED`, codes 0x08 to 0xFF (60_exceptions.md R201). -/
  | cmdReserved (code : Byte)
  /-- `WR addr, data`, any address but 0x20 (40_host_access.md R102). -/
  | wr (addr data : Byte)
  /-- `RD addr` (40_host_access.md R101). The word's `DATA` bits are ignored (30_encoding.md R80). -/
  | rd (addr : Byte)
  deriving DecidableEq, Repr

end Sys2Proof
end

