-- ==== Sys2Proof/WellFormed.lean ====
section
/-! DEFINITION. Which terms of `Instr` stand for a bus word. -/

namespace Sys2Proof

/-- A reserved code is 0x08 to 0xFF (30_encoding.md R83), and a `WR` names any address but 0x20, whose words
are commands (40_host_access.md R102). Every other term is well formed. -/
def Instr.wellFormed : Instr → Bool
  | .cmdReserved code => decide (8 ≤ code.toNat)
  | .wr addr _ => decide (addr ≠ 0x20#8)
  | .nop => true
  | .clear => true
  | .csum0 => true
  | .csum1 => true
  | .validate => true
  | .finalize => true
  | .encode => true
  | .decode => true
  | .rd _ => true

end Sys2Proof
end

