-- ==== Sys2Proof/Decode.lean ====
section
/-! DEFINITION. Decoding and encoding of the 17-bit bus word (30_encoding.md R80 to R86), and the opcode table's
rows with their precedence. -/

namespace Sys2Proof

/-- Bit 16, `WE`: true for a write (30_encoding.md R80). -/
def weOf (w : BusWord) : Bool := w.getLsbD 16

/-- Bits 15:8, `ADDR` (30_encoding.md R80). -/
def addrOf (w : BusWord) : Byte := w.extractLsb' 8 8

/-- Bits 7:0, `DATA` (30_encoding.md R80). -/
def dataOf (w : BusWord) : Byte := w.extractLsb' 0 8

/-- The address of the command register (20_memory.md R61). -/
def cmdAddr : Byte := 0x20#8

/-- The command of a code written to `CMD` (30_encoding.md R83). -/
def commandOf (code : Byte) : Instr :=
  match code.toNat with
  | 0x00 => .nop
  | 0x01 => .clear
  | 0x02 => .csum0
  | 0x03 => .csum1
  | 0x04 => .validate
  | 0x05 => .finalize
  | 0x06 => .encode
  | 0x07 => .decode
  | _ => .cmdReserved code

/-- `decode(w)` of 30_encoding.md R86: total on every 17-bit word. -/
def decode (w : BusWord) : Instr :=
  if weOf w = false then .rd (addrOf w)
  else if addrOf w ≠ cmdAddr then .wr (addrOf w) (dataOf w)
  else commandOf (dataOf w)

/-- Why a number is no transaction. -/
inductive DecodeReject where
  /-- The number needs more than the 17 lines of the bus; every transaction is exactly one 17-bit word
  (30_encoding.md R85). Safe: nothing is executed. -/
  | notABusWord
  deriving DecidableEq, Repr

/-- The decoder on any number: a number of at most 17 bits is a word and decodes; any other is rejected by name. -/
def decodeNat (n : Nat) : Except DecodeReject Instr :=
  if n < 2 ^ 17 then .ok (decode (BitVec.ofNat 17 n)) else .error .notABusWord

/-- The instruction the decoder reads from the bits `w` of a table row, the bits above `nbits` being 0. The bus
word is bit 0 to bit 16 of that number: there is one word and no byte order (20_memory.md R66). -/
def decodeTableWord (nbits w : Nat) : Option Instr :=
  match decodeNat (w % 2 ^ nbits) with
  | .ok i => some i
  | .error _ => none

/-- The word `WE ADDR DATA` (30_encoding.md R80). -/
def packWord (we : Bool) (addr data : Byte) : BusWord := BitVec.ofBool we ++ addr ++ data

/-- The word of a command code, `0x12000 | code` (30_encoding.md R81). -/
def commandWord (code : Byte) : BusWord := packWord true cmdAddr code

/-- The word of a transaction (30_encoding.md R80, R81, R83; an `RD` is written with `DATA` 0x00). -/
def encode : Instr → BusWord
  | .nop => commandWord 0x00#8
  | .clear => commandWord 0x01#8
  | .csum0 => commandWord 0x02#8
  | .csum1 => commandWord 0x03#8
  | .validate => commandWord 0x04#8
  | .finalize => commandWord 0x05#8
  | .encode => commandWord 0x06#8
  | .decode => commandWord 0x07#8
  | .cmdReserved code => commandWord code
  | .wr addr data => packWord true addr data
  | .rd addr => packWord false addr 0x00#8

/-- One row of the opcode table: a word belongs to it when its bits under the mask are the pattern. -/
structure OpcodeRow where
  mnemonic : String
  pattern : BusWord
  mask : BusWord
  deriving DecidableEq, Repr

/-- Whether a word has a row's pattern under its mask. -/
def OpcodeRow.fits (r : OpcodeRow) (w : BusWord) : Bool := w &&& r.mask == r.pattern

/-- The rows of opcode_table.json in their order of precedence: the command rows, then `CMD_RESERVED`, then
`WR`, then `RD` (30_encoding.md R86). -/
def opcodeTable : List OpcodeRow :=
  [⟨"NOP", 0x12000#17, 0x1FFFF#17⟩, ⟨"CLEAR", 0x12001#17, 0x1FFFF#17⟩, ⟨"CSUM0", 0x12002#17, 0x1FFFF#17⟩,
   ⟨"CSUM1", 0x12003#17, 0x1FFFF#17⟩, ⟨"VALIDATE", 0x12004#17, 0x1FFFF#17⟩, ⟨"FINALIZE", 0x12005#17, 0x1FFFF#17⟩,
   ⟨"ENCODE", 0x12006#17, 0x1FFFF#17⟩, ⟨"DECODE", 0x12007#17, 0x1FFFF#17⟩, ⟨"CMD_RESERVED", 0x12000#17, 0x1FF00#17⟩,
   ⟨"WR", 0x10000#17, 0x10000#17⟩, ⟨"RD", 0x00000#17, 0x10000#17⟩]

/-- The row a word belongs to: the first that fits (30_encoding.md R86). -/
def opcodeRowOf (w : BusWord) : Option OpcodeRow := opcodeTable.find? fun r => r.fits w

/-- An instruction's mnemonic, as opcode_table.json spells it. -/
def Instr.mnemonic : Instr → String
  | .nop => "NOP"
  | .clear => "CLEAR"
  | .csum0 => "CSUM0"
  | .csum1 => "CSUM1"
  | .validate => "VALIDATE"
  | .finalize => "FINALIZE"
  | .encode => "ENCODE"
  | .decode => "DECODE"
  | .cmdReserved _ => "CMD_RESERVED"
  | .wr _ _ => "WR"
  | .rd _ => "RD"

end Sys2Proof
end

