-- ==== Sys2Proof/Machine/Timing.lean ====
section
/-! DEFINITION. The codec's fixed parameters (00_scope.md R8): the tick counts, their microseconds, the carrier,
and the pulse pairs made of them. -/

namespace Sys2Proof.Machine

/-- `TICK_US` (00_scope.md R8). -/
def tickUs : Nat := 85

/-- A count of ticks in microseconds: the count times `TICK_US` (00_scope.md R8). -/
def ticks (n : Nat) : Micros := BitVec.ofNat 16 (n * tickUs)

/-- `HDR_MARK_US`, 106 ticks, 9010 µs. -/
def hdrMarkUs : Micros := ticks 106

/-- `HDR_SPACE_US`, 53 ticks, 4505 µs. -/
def hdrSpaceUs : Micros := ticks 53

/-- `BIT_MARK_US`, 8 ticks, 680 µs. -/
def bitMarkUs : Micros := ticks 8

/-- `ONE_SPACE_US`, 18 ticks, 1530 µs. -/
def oneSpaceUs : Micros := ticks 18

/-- `ZERO_SPACE_US`, 6 ticks, 510 µs. -/
def zeroSpaceUs : Micros := ticks 6

/-- `GAP_US`, 235 ticks, 19975 µs. -/
def gapUs : Micros := ticks 235

/-- `GAP2_US`, 470 ticks, 39950 µs. -/
def gap2Us : Micros := ticks 470

/-- `CARRIER_HZ` (00_scope.md R8). -/
def carrierHz : Hertz := 38000#32

/-- The header pair (42_pulse_codec.md R163). -/
def headerPair : PulsePair := ⟨hdrMarkUs, hdrSpaceUs⟩

/-- The pair of a bit of value 0, and of a footer 0 (42_pulse_codec.md R160, R163). -/
def zeroPair : PulsePair := ⟨bitMarkUs, zeroSpaceUs⟩

/-- The pair of a bit of value 1, and of the footer 1 (42_pulse_codec.md R160, R163). -/
def onePair : PulsePair := ⟨bitMarkUs, oneSpaceUs⟩

/-- The gap after the footer, and the end of message 0 (42_pulse_codec.md R163, D14). -/
def gapPair : PulsePair := ⟨bitMarkUs, gapUs⟩

/-- The double gap that ends message 1 (42_pulse_codec.md R163). -/
def gap2Pair : PulsePair := ⟨bitMarkUs, gap2Us⟩

/-- The pair of a data bit: the mark is the same for both values (42_pulse_codec.md R157, R160). -/
def bitPair (b : Bool) : PulsePair := if b then onePair else zeroPair

/-- The terminating pair of message `k`: a single gap after message 0, a double one after message 1
(42_pulse_codec.md R163). -/
def terminatingPair (k : Nat) : PulsePair := if k = 0 then gapPair else gap2Pair

end Sys2Proof.Machine
end

