-- ==== Sys2Proof/Machine/Operands.lean ====
section
/-! DEFINITION. The parts of a 16-byte protocol state: its bytes, their nibbles, the field layout of 10_state.md
R33, and the order in which bytes and bits go on the wire. -/

namespace Sys2Proof.Machine

/-- `lo4(b) = b[3:0]` (00_scope.md R9). -/
def lo4 (b : Byte) : Nibble := b.extractLsb' 0 4

/-- `hi4(b) = b[7:4]` (00_scope.md R9). -/
def hi4 (b : Byte) : Nibble := b.extractLsb' 4 4

/-- A byte from two nibbles, `hi` in bits 7:4 (00_scope.md R9). -/
def joinNibbles (hi lo : Nibble) : Byte := hi ++ lo

/-- `B[n]`, for `n` from 0 to 15 (00_scope.md R9). -/
def byteAt (B : ProtocolState) (n : Nat) : Byte := B[n]?.getD 0x00#8

/-- `B[n] <- v`, for `n` from 0 to 15 (00_scope.md R10). -/
def setByte (B : ProtocolState) (n : Nat) (v : Byte) : ProtocolState := B.setIfInBounds n v

/-- The state of 16 zero bytes, the source's empty state (10_state.md R39). -/
def zeroState : ProtocolState := Vector.replicate 16 0x00#8

/-- `v[i] <- b`: a byte with one bit written (42_pulse_codec.md R167). -/
def setBitTo (v : Byte) (i : Nat) (b : Bool) : Byte :=
  if b then v ||| (0x01#8 <<< i) else v &&& ~~~(0x01#8 <<< i)

/-- A field of the layout: bits `hi` to `lo` of one byte (10_state.md R33). -/
structure Field where
  byte : Nat
  hi : Nat
  lo : Nat
  deriving DecidableEq, Repr

/-- A field's value, read as an unsigned number (00_scope.md R9). -/
def fieldOf (B : ProtocolState) (f : Field) : Nat := (byteAt B f.byte).toNat / 2 ^ f.lo % 2 ^ (f.hi + 1 - f.lo)

/-- `Mode` (10_state.md R33): 0 Auto, 1 Cool, 2 Dry, 3 Fan, 4 Heat. -/
def fMode : Field := ⟨0, 2, 0⟩
/-- `Power`. -/
def fPower : Field := ⟨0, 3, 3⟩
/-- `BasicFan`. -/
def fBasicFan : Field := ⟨0, 5, 4⟩
/-- `SwingAuto`. -/
def fSwingAuto : Field := ⟨0, 6, 6⟩
/-- Byte 0 bit 7, "(unused / sleep)": no meaning (93 I3). -/
def fUnused0 : Field := ⟨0, 7, 7⟩
/-- `Temp`. -/
def fTemp : Field := ⟨1, 3, 0⟩
/-- Byte 1 bits 7:4, not listed (93 I6). -/
def fRest1 : Field := ⟨1, 7, 4⟩
/-- Byte 2 bits 3:0, not listed (93 I6). -/
def fRest2 : Field := ⟨2, 3, 0⟩
/-- `Turbo`. -/
def fTurbo : Field := ⟨2, 4, 4⟩
/-- `Light`. -/
def fLight : Field := ⟨2, 5, 5⟩
/-- `IonFilter`. -/
def fIonFilter : Field := ⟨2, 6, 6⟩
/-- `XFan`. -/
def fXFan : Field := ⟨2, 7, 7⟩
/-- The marker of byte 3, 0x50 in a finalized state (10_state.md R34). -/
def fMarker3 : Field := ⟨3, 7, 0⟩
/-- `SwingV`. -/
def fSwingV : Field := ⟨4, 3, 0⟩
/-- `SwingH`. -/
def fSwingH : Field := ⟨4, 4, 4⟩
/-- Byte 4 bits 7:5, not listed (93 I6). -/
def fRest4 : Field := ⟨4, 7, 5⟩
/-- Byte 5, "timer-related" (93 I4). -/
def fTimer5 : Field := ⟨5, 7, 0⟩
/-- Byte 6, "timer-related" (93 I4). -/
def fTimer6 : Field := ⟨6, 7, 0⟩
/-- Byte 7 bits 3:0, not listed (93 I7). -/
def fRest7 : Field := ⟨7, 3, 0⟩
/-- `Sum1`, the stored checksum of block 0 (10_state.md R36). -/
def fSum1 : Field := ⟨7, 7, 4⟩
/-- Byte 8, the mirror of byte 0 in a finalized state (10_state.md R35). -/
def fMirror8 : Field := ⟨8, 7, 0⟩
/-- Byte 9, the mirror of byte 1. -/
def fMirror9 : Field := ⟨9, 7, 0⟩
/-- Byte 10, the mirror of byte 2. -/
def fMirror10 : Field := ⟨10, 7, 0⟩
/-- The marker of byte 11, 0x70 in a finalized state (10_state.md R34). -/
def fMarker11 : Field := ⟨11, 7, 0⟩
/-- Byte 12 bits 6:0, not listed (93 I6). -/
def fRest12 : Field := ⟨12, 6, 0⟩
/-- `Quiet`. -/
def fQuiet : Field := ⟨12, 7, 7⟩
/-- Byte 13, "reserved, zero": any value (93 I5). -/
def fReserved13 : Field := ⟨13, 7, 0⟩
/-- `Fan`. -/
def fFan : Field := ⟨14, 2, 0⟩
/-- Byte 14 bits 7:3, not listed (93 I6). -/
def fRest14 : Field := ⟨14, 7, 3⟩
/-- Byte 15 bits 3:0, not listed (93 I7). -/
def fRest15 : Field := ⟨15, 3, 0⟩
/-- `Sum2`, the stored checksum of block 1 (10_state.md R36). -/
def fSum2 : Field := ⟨15, 7, 4⟩

/-- The layout table, row by row (10_state.md R33). -/
def layout : List Field :=
  [fMode, fPower, fBasicFan, fSwingAuto, fUnused0, fTemp, fRest1, fRest2, fTurbo, fLight, fIonFilter, fXFan,
   fMarker3, fSwingV, fSwingH, fRest4, fTimer5, fTimer6, fRest7, fSum1, fMirror8, fMirror9, fMirror10, fMarker11,
   fRest12, fQuiet, fReserved13, fFan, fRest14, fRest15, fSum2]

/-- The eight pairs of a byte, least significant bit first (42_pulse_codec.md R160, R162). -/
def bytePairs (v : Byte) : List PulsePair := (List.range 8).map fun i => bitPair (v.getLsbD i)

/-- The pairs of the footer `0,1,0` (42_pulse_codec.md R163). -/
def footerPairs : List PulsePair := [zeroPair, onePair, zeroPair]

/-- The 70 pairs of message `k` of a state (42_pulse_codec.md R161, R163). -/
def messagePairs (B : ProtocolState) (k : Nat) : List PulsePair :=
  [headerPair]
    ++ (List.range 4).flatMap (fun j => bytePairs (byteAt B (8 * k + j)))
    ++ footerPairs ++ [gapPair]
    ++ (List.range 4).flatMap (fun j => bytePairs (byteAt B (8 * k + 4 + j)))
    ++ [terminatingPair k]

/-- The 140 pairs of a transmission: message 0, then message 1 (42_pulse_codec.md R161). -/
def burstPairs (B : ProtocolState) : List PulsePair := messagePairs B 0 ++ messagePairs B 1

end Sys2Proof.Machine
end

