-- ==== Sys2Proof/Config.lean ====
section
/-! DEFINITION. The two open parameters of the spec, as constants without a body: nothing can be proved of
their values, so what is proved holds for every value. -/

namespace Sys2Proof

/-- `MATCH_FN(expected, observed)`, the transport's tolerance rule: an open parameter, a total function of the
two pairs and of nothing else (42_pulse_codec.md R155, D18; log 3). -/
opaque Config.matchFn : PulsePair → PulsePair → Bool

/-- `KIRC_BASE`, where the 256 registers lie in the host's address map: an open parameter (20_memory.md R67,
D3; log 10). -/
opaque Config.kircBase : Nat

end Sys2Proof
end

