-- ==== Sys2Proof/Machine/State.lean ====
section
/-! DEFINITION. The state of KIRC and of the transport it is attached to (10_state.md), the inputs that reach it,
and the state after reset. -/

namespace Sys2Proof.Machine

/-- An item of the transmit queue (10_state.md R31, 42_pulse_codec.md R151, R152). -/
inductive TxItem where
  /-- `Carrier(hz)`: the carrier frequency of the marks that follow. -/
  | carrier (hz : Hertz)
  /-- `Pair(mark_us, space_us)`. -/
  | pair (p : PulsePair)
  deriving DecidableEq, Repr

/-- Which `MATCH_FN` the transport has (42_pulse_codec.md R155). An open parameter written as plain data, so
that a state can name the spec's own instances; no step changes it (log 3). -/
inductive MatchFn where
  /-- The transport's own rule, whatever it is: the opaque `Config.matchFn`. -/
  | free
  /-- `MATCH_EXACT(e, o) = (e = o)` (42_pulse_codec.md R155). -/
  | exact
  /-- A tolerance window whose bounds are further parameters (42_pulse_codec.md R155): a mark or space may be off
  by a count of microseconds plus a percentage of the expected value, each rounded down. -/
  | window (markUs markPercent spaceUs spacePercent : Nat)
  deriving DecidableEq, Repr

/-- What can reach KIRC between two transactions: the host's next transaction, an act of the transport, a reset. -/
inductive Input where
  /-- The host issues a transaction (20_memory.md R62, R69). -/
  | bus (w : BusWord)
  /-- The transport replaces `RXB` with a new captured burst and sets `RXCUR` to 0 (42_pulse_codec.md R156). -/
  | capture (burst : List PulsePair)
  /-- The transport fills `RXB` further, leaving what is there and the cursor (10_state.md R32; log 6). -/
  | receive (more : List PulsePair)
  /-- The transport sets `RXCUR` to 0, leaving `RXB` (20_memory.md R74, 42_pulse_codec.md R156). -/
  | rewind
  /-- The transport takes `n` items from the front of `TXQ` (10_state.md R31, 20_memory.md R74; log 7). -/
  | take (n : Nat)
  /-- KIRC is reset (70_reset_and_hazards.md R230, R231). -/
  | reset
  /-- The transport is reset and then holds `burst` (70_reset_and_hazards.md R231, I16; log 8). -/
  | transportReset (burst : List PulsePair)
  deriving DecidableEq, Repr

/-- Everything that has a value from one transaction to the next: KIRC's registers (10_state.md R20), the
transport's queue, buffer and cursor (R31, R32), and the model's own account of the environment. -/
structure State where
  /-- `TXBUF`, the transmit state buffer (10_state.md R22). -/
  txbuf : ProtocolState
  /-- `RXBUF`, the receive state buffer (10_state.md R23). -/
  rxbuf : ProtocolState
  /-- `RXSHADOW`, the decode assembly buffer (10_state.md R24). -/
  rxshadow : ProtocolState
  /-- `CSUM.SUM`, bits 3:0 of the checksum register; bits 7:4 are hard-wired 0 (10_state.md R25). -/
  csum : Nibble
  /-- `STATUS.VALID`, bit 0 (10_state.md R27). -/
  statusValid : Bool
  /-- `STATUS.MATCH`, bit 1 (10_state.md R28). -/
  statusMatch : Bool
  /-- `STATUS.BADCMD`, bit 2 (10_state.md R29). -/
  statusBadcmd : Bool
  /-- `TXQ`, the transport's transmit queue, front first (10_state.md R31). -/
  txq : List TxItem
  /-- `RXB`, the transport's receive buffer (10_state.md R32). -/
  rxb : List PulsePair
  /-- `RXCUR`, the index into `RXB` of the next pair to be compared (10_state.md R32). -/
  rxcur : Nat
  /-- The model's own: the transport's `MATCH_FN` (log 3). -/
  matchFn : MatchFn
  /-- The model's own: the bytes RD transactions have returned to the host, oldest first (log 2). -/
  hostReads : List Byte
  /-- The model's own: what the environment gives next, in order (log 1). -/
  pending : List Input
  deriving DecidableEq, Repr

/-- What stops the machine. KIRC raises no trap, and no event stops it (60_exceptions.md R200, R204), so there is
no such reason: the type has no constructor (log 13). -/
inductive Fault where
  deriving DecidableEq, Repr

/-- Why the model gives no meaning. -/
inductive Refusal where
  /-- An arm of `exec` whose instruction has no meaning yet. Safe: nothing is executed. No arm answers it. -/
  | notModelled (mnemonic : String)
  /-- `execWr` and `execCmdReserved`, on a term that stands for no bus word: a `WR` of address 0x20, or a reserved
  code below 0x08 (log 11). Safe: `decode` never gives such a term, and nothing is executed. -/
  | illFormed (mnemonic : String)
  deriving DecidableEq, Repr

/-- The machine after reset: KIRC's registers as 10_state.md R39 lists them; nothing in the transport's queue and
buffer (DESIGN CHOICE, log 4), nothing read and nothing pending (log 1, 2), the transport's rule left open (log 3). -/
def State.reset : State where
  txbuf := Vector.replicate 16 0x00#8
  rxbuf := Vector.replicate 16 0x00#8
  rxshadow := Vector.replicate 16 0x00#8
  csum := 0x0#4
  statusValid := false
  statusMatch := false
  statusBadcmd := false
  txq := []
  rxb := []
  rxcur := 0
  matchFn := .free
  hostReads := []
  pending := []

end Sys2Proof.Machine
end

