-- ==== Sys2Proof/Machine/Flags.lean ====
section
/-! DEFINITION. What KIRC computes from a state buffer: the checksum, validity, the finalized state; and the status
and checksum registers as the host reads them. -/

namespace Sys2Proof.Machine

/-- `CSUM_START` (00_scope.md R8). -/
def csumStart : Nat := 10

/-- The exact sum over the region `B[o..o+6]` before the `mod 16`: low nibbles of the first four bytes, high
nibbles of the next three (41_integrity.md R120). -/
def checksumSum (B : ProtocolState) (o : Nat) : Nat :=
  csumStart + ((List.range 4).map fun i => (lo4 (byteAt B (o + i))).toNat).sum
    + ((List.range 3).map fun i => (hi4 (byteAt B (o + 4 + i))).toNat).sum

/-- `Checksum(B, o)`: the sum modulo 16 (41_integrity.md R120). -/
def checksum (B : ProtocolState) (o : Nat) : Nibble := BitVec.ofNat 4 (checksumSum B o % 16)

/-- `is_valid(B)`: both stored nibbles equal the recomputed checksums; nothing else is read (41_integrity.md R122,
R129). -/
def isValid (B : ProtocolState) : Bool :=
  hi4 (byteAt B 7) == checksum B 0 && hi4 (byteAt B 15) == checksum B 8

/-- XFan is meaningful in Mode 1 (Cool) and Mode 2 (Dry) only; in every other Mode, 5 to 7 included, it is cleared
(41_integrity.md R125, D37). -/
def forceXFan (B : ProtocolState) : ProtocolState :=
  if fieldOf B fMode ≠ 1 ∧ fieldOf B fMode ≠ 2 then setByte B 2 (setBitTo (byteAt B 2) 7 false) else B

/-- The markers of bytes 3 and 11 (41_integrity.md R125). -/
def writeMarkers (B : ProtocolState) : ProtocolState := setByte (setByte B 3 0x50#8) 11 0x70#8

/-- `B[n] <- B[m]`. -/
def copyByte (B : ProtocolState) (n m : Nat) : ProtocolState := setByte B n (byteAt B m)

/-- Bytes 8, 9, 10 mirror bytes 0, 1, 2 (41_integrity.md R125). -/
def writeMirror (B : ProtocolState) : ProtocolState := copyByte (copyByte (copyByte B 8 0) 9 1) 10 2

/-- The checksum of the block at `o` goes into bits 7:4 of byte `o + 7`; bits 3:0 keep their value
(41_integrity.md R125, D21). -/
def writeSum (B : ProtocolState) (o : Nat) : ProtocolState :=
  setByte B (o + 7) (joinNibbles (checksum B o) (lo4 (byteAt B (o + 7))))

/-- The steps of `FINALIZE` in their order: XFan, markers, mirror, checksum of block 0, checksum of block 1
(41_integrity.md R125). -/
def finalized (B : ProtocolState) : ProtocolState :=
  writeSum (writeSum (writeMirror (writeMarkers (forceXFan B))) 0) 8

/-- `STATUS` as the host reads it: `{BADCMD, MATCH, VALID}` in bits 2, 1, 0, the reserved bits 0 (10_state.md R26,
40_host_access.md R101). -/
def statusByte (s : State) : Byte :=
  (BitVec.ofBool s.statusBadcmd ++ BitVec.ofBool s.statusMatch ++ BitVec.ofBool s.statusValid).setWidth 8

/-- `CSUM` as the host reads it: `SUM` in bits 3:0, the reserved bits 0 (10_state.md R25, 40_host_access.md R101). -/
def csumByte (s : State) : Byte := s.csum.setWidth 8

end Sys2Proof.Machine
end

