-- ==== Sys2Proof/Machine/Ops.lean ====
section
/-! DEFINITION. The shared operations: the register space, BadCmd and its acknowledgement, the three calls to the
transport, and the passes of the decoder. -/

namespace Sys2Proof.Machine

/-- `REG(a)`: what a host read of address `a` returns (20_memory.md R61, R63; 40_host_access.md R101). -/
def readReg (s : State) (a : Byte) : Byte :=
  if a.toNat ≤ 0x0F then byteAt s.txbuf a.toNat
  else if a.toNat ≤ 0x1F then byteAt s.rxbuf (a.toNat - 0x10)
  else if a.toNat = 0x20 then 0x00#8
  else if a.toNat = 0x21 then statusByte s
  else if a.toNat = 0x22 then csumByte s
  else 0x00#8

/-- Where a register lies in the host's address map: `KIRC_BASE` plus its address (20_memory.md R67; log 10). -/
def hostAddress (a : Byte) : Nat := Config.kircBase + a.toNat

/-- The register a host address names, if it lies in KIRC's 256 bytes (20_memory.md R67; log 10). -/
def registerAt (hostAddr : Nat) : Option Byte :=
  if Config.kircBase ≤ hostAddr ∧ hostAddr < Config.kircBase + 256 then
    some (BitVec.ofNat 8 (hostAddr - Config.kircBase))
  else none

/-- BadCmd, KIRC's one exception: the sticky flag is set, and nothing is saved, no mode changes and control goes
nowhere (60_exceptions.md R200, R201, R204). -/
def raiseBadCmd (s : State) : State := { s with statusBadcmd := true }

/-- The acknowledgement of BadCmd, KIRC's only one: a write with bit 2 set clears the flag; every other bit of the
data is ignored (10_state.md R26, 60_exceptions.md R205). -/
def ackBadCmd (s : State) (data : Byte) : State :=
  if data.getLsbD 2 then { s with statusBadcmd := false } else s

/-- `REG(a) <- v` at any address but `CMD`: a byte of `TXBUF`, the acknowledgement in `STATUS`, or no effect at a
read-only or reserved address (20_memory.md R63, R64; 40_host_access.md R102). -/
def writeReg (s : State) (a data : Byte) : State :=
  if a.toNat ≤ 0x0F then { s with txbuf := setByte s.txbuf a.toNat data }
  else if a.toNat = 0x21 then ackBadCmd s data
  else s

/-- A value returned to the host (40_host_access.md R101; log 2). -/
def returnToHost (s : State) (v : Byte) : State := { s with hostReads := s.hostReads ++ [v] }

/-- An item goes to the end of `TXQ`; the transport accepts every item (10_state.md R31, 42_pulse_codec.md R151). -/
def appendItem (s : State) (item : TxItem) : State := { s with txq := s.txq ++ [item] }

/-- `Emit(m, s)` (42_pulse_codec.md R151). -/
def emit (s : State) (p : PulsePair) : State := appendItem s (.pair p)

/-- `SetCarrier(hz)` (42_pulse_codec.md R152). -/
def setCarrier (s : State) (hz : Hertz) : State := appendItem s (.carrier hz)

/-- `Emit` for each pair of a list, in order. -/
def emitAll (s : State) (ps : List PulsePair) : State := ps.foldl emit s

/-- `EmitMessage(S, k)` (42_pulse_codec.md R163). -/
def emitMessage (s : State) (B : ProtocolState) (k : Nat) : State := emitAll s (messagePairs B k)

/-- Whether an observed duration lies within a window around an expected one. -/
def withinWindow (expected observed : Micros) (us percent : Nat) : Bool :=
  decide (expected.toNat ≤ observed.toNat + (us + expected.toNat * percent / 100)) &&
    decide (observed.toNat ≤ expected.toNat + (us + expected.toNat * percent / 100))

/-- `MATCH_FN(expected, observed)` (42_pulse_codec.md R155). -/
def MatchFn.accepts (m : MatchFn) (expected observed : PulsePair) : Bool :=
  match m with
  | .free => Config.matchFn expected observed
  | .exact => decide (expected = observed)
  | .window markUs markPercent spaceUs spacePercent =>
    withinWindow expected.markUs observed.markUs markUs markPercent &&
      withinWindow expected.spaceUs observed.spaceUs spaceUs spacePercent

/-- `Expect(m, s)`: the next received pair is compared, and the cursor advances only on a match; an exhausted
buffer does not match (42_pulse_codec.md R154). -/
def expect (e : PulsePair) (s : State) : Bool × State :=
  match s.rxb[s.rxcur]? with
  | some o => if s.matchFn.accepts e o then (true, { s with rxcur := s.rxcur + 1 }) else (false, s)
  | none => (false, s)

/-- `DecodeBit()`: the one-space is tried first, then the zero-space (42_pulse_codec.md R166). -/
def decodeBit (s : State) : Option Bool × State :=
  match expect onePair s with
  | (true, s1) => (some true, s1)
  | (false, s1) =>
    match expect zeroPair s1 with
    | (true, s2) => (some false, s2)
    | (false, s2) => (none, s2)

/-- The loop of `DecodeByte`: the bits of the list, in its order, are read into `v`; the first that cannot be read
ends it (42_pulse_codec.md R167). -/
def decodeBits : List Nat → Byte → State → Option Byte × State
  | [], v, s => (some v, s)
  | i :: rest, v, s =>
    match decodeBit s with
    | (some b, s1) => decodeBits rest (setBitTo v i b) s1
    | (none, s1) => (none, s1)

/-- `DecodeByte(n)`: byte `n` of `RXSHADOW` is written only when its eight bits have been read
(42_pulse_codec.md R167; log 5). -/
def decodeByte (n : Nat) (s : State) : Bool × State :=
  match decodeBits (List.range 8) 0x00#8 s with
  | (some v, s1) => (true, { s1 with rxshadow := setByte s1.rxshadow n v })
  | (none, s1) => (false, s1)

/-- Passes run in order; the first that answers false ends the run (42_pulse_codec.md R168, R170). -/
def runPasses : List (State → Bool × State) → State → Bool × State
  | [], s => (true, s)
  | f :: rest, s =>
    match f s with
    | (true, s1) => runPasses rest s1
    | (false, s1) => (false, s1)

/-- The passes of `DecodeMessage(k)`: the mirror of a message's pairs; the footer is compared as fixed pairs
(42_pulse_codec.md R168, D16). -/
def messagePasses (k : Nat) : List (State → Bool × State) :=
  [expect headerPair]
    ++ (List.range 4).map (fun j => decodeByte (8 * k + j))
    ++ footerPairs.map expect ++ [expect gapPair]
    ++ (List.range 4).map (fun j => decodeByte (8 * k + 4 + j))
    ++ [expect (terminatingPair k)]

/-- `DecodeMessage(k)` (42_pulse_codec.md R168). -/
def decodeMessage (k : Nat) (s : State) : Bool × State := runPasses (messagePasses k) s

/-- Both messages of a burst, from an empty `RXSHADOW`; message 1 is not attempted when message 0 failed
(42_pulse_codec.md R169). -/
def decodeBurst (s : State) : Bool × State :=
  runPasses [decodeMessage 0, decodeMessage 1] { s with rxshadow := zeroState }

/-- The end of `DECODE` on a match: all 16 bytes at once, and `MATCH` 1 (42_pulse_codec.md R169). -/
def commitMatch (s : State) : State := { s with rxbuf := s.rxshadow, statusMatch := true }

/-- The end of `DECODE` on no match: `MATCH` 0, and `RXBUF` stays (42_pulse_codec.md R170). -/
def noMatch (s : State) : State := { s with statusMatch := false }

end Sys2Proof.Machine
end

