-- ==== Sys2Proof/Machine/Codec.lean ====
section
/-! DEFINITION. ENCODE and DECODE (42_pulse_codec.md). -/

namespace Sys2Proof.Machine

/-- `ENCODE` (42_pulse_codec.md R164): the carrier, then both messages of a snapshot of `TXBUF`, which is neither
finalized nor checked (D23). -/
def execEncode (s : State) : Host.Outcome State Fault Refusal :=
  .next (emitMessage (emitMessage (setCarrier s carrierHz) s.txbuf 0) s.txbuf 1)

/-- `DECODE` (42_pulse_codec.md R169): a match needs both messages and a valid assembled state; anything else is
the one outcome "no match" (R170). -/
def execDecode (s : State) : Host.Outcome State Fault Refusal :=
  match decodeBurst s with
  | (true, s1) => .next (if isValid s1.rxshadow then commitMatch s1 else noMatch s1)
  | (false, s1) => .next (noMatch s1)

end Sys2Proof.Machine
end

