-- ==== Sys2Proof/Machine/Exceptions.lean ====
section
/-! DEFINITION. CMD_RESERVED, the command codes that raise BadCmd (60_exceptions.md). -/

namespace Sys2Proof.Machine

/-- `CMD_RESERVED` (60_exceptions.md R201): BadCmd is raised, and the code is not kept. A code below 0x08 is another
command's (30_encoding.md R83): the term is refused (log 11). -/
def execCmdReserved (code : Byte) (s : State) : Host.Outcome State Fault Refusal :=
  if code.toNat < 0x08 then .refused (.illFormed "CMD_RESERVED") else .next (raiseBadCmd s)

end Sys2Proof.Machine
end

