-- ==== Sys2Proof/Machine/HostAccess.lean ====
section
/-! DEFINITION. RD, WR, NOP and CLEAR (40_host_access.md). -/

namespace Sys2Proof.Machine

/-- `RD addr` (40_host_access.md R101): the register's byte is returned, and a read has no side effect
(20_memory.md R64). -/
def execRd (addr : Byte) (s : State) : Host.Outcome State Fault Refusal :=
  .next (returnToHost s (readReg s addr))

/-- `WR addr, data` (40_host_access.md R102). A write of address 0x20 is a command, never a `WR` (30_encoding.md
R86): the term is refused (log 11). -/
def execWr (addr data : Byte) (s : State) : Host.Outcome State Fault Refusal :=
  if addr = 0x20#8 then .refused (.illFormed "WR") else .next (writeReg s addr data)

/-- `NOP` (40_host_access.md R103). -/
def execNop (s : State) : Host.Outcome State Fault Refusal := .next s

/-- `CLEAR` (40_host_access.md R104): every byte of `TXBUF` becomes 0x00. -/
def execClear (s : State) : Host.Outcome State Fault Refusal := .next { s with txbuf := zeroState }

end Sys2Proof.Machine
end

