-- ==== Sys2Proof/Machine/Integrity.lean ====
section
/-! DEFINITION. CSUM0, CSUM1, VALIDATE and FINALIZE (41_integrity.md). -/

namespace Sys2Proof.Machine

/-- `CSUM0` (41_integrity.md R123): the checksum of block 0 of `TXBUF`. -/
def execCsum0 (s : State) : Host.Outcome State Fault Refusal := .next { s with csum := checksum s.txbuf 0 }

/-- `CSUM1` (41_integrity.md R124): the checksum of block 1 of `TXBUF`. -/
def execCsum1 (s : State) : Host.Outcome State Fault Refusal := .next { s with csum := checksum s.txbuf 8 }

/-- `VALIDATE` (41_integrity.md R127). -/
def execValidate (s : State) : Host.Outcome State Fault Refusal :=
  .next { s with statusValid := isValid s.txbuf }

/-- `FINALIZE` (41_integrity.md R125): neither `CSUM` nor `STATUS` is written (D22). -/
def execFinalize (s : State) : Host.Outcome State Fault Refusal := .next { s with txbuf := finalized s.txbuf }

end Sys2Proof.Machine
end

