-- ==== Sys2Proof/Machine/Dispatch.lean ====
section
/-! DEFINITION. One arm per instruction, each a call of its meaning. -/

namespace Sys2Proof.Machine

def exec (i : Instr) (s : State) : Host.Outcome State Fault Refusal :=
  match i with
  | .nop => Sys2Proof.Machine.execNop s
  | .clear => Sys2Proof.Machine.execClear s
  | .csum0 => Sys2Proof.Machine.execCsum0 s
  | .csum1 => Sys2Proof.Machine.execCsum1 s
  | .validate => Sys2Proof.Machine.execValidate s
  | .finalize => Sys2Proof.Machine.execFinalize s
  | .encode => Sys2Proof.Machine.execEncode s
  | .decode => Sys2Proof.Machine.execDecode s
  | .cmdReserved code => Sys2Proof.Machine.execCmdReserved code s
  | .wr addr data => Sys2Proof.Machine.execWr addr data s
  | .rd addr => Sys2Proof.Machine.execRd addr s

end Sys2Proof.Machine
end

