-- ==== Sys2Proof/Machine/Environment.lean ====
section
/-! DEFINITION. What happens between two transactions: the transport's acts and the reset event. -/

namespace Sys2Proof.Machine

/-- A new burst is captured and the cursor set to its first pair (42_pulse_codec.md R156). -/
def captureBurst (s : State) (burst : List PulsePair) : State := { s with rxb := burst, rxcur := 0 }

/-- `RXB` is filled further (10_state.md R32; log 6). -/
def receiveMore (s : State) (more : List PulsePair) : State := { s with rxb := s.rxb ++ more }

/-- The cursor is set to 0 (20_memory.md R74). -/
def rewindCursor (s : State) : State := { s with rxcur := 0 }

/-- `n` items leave the front of `TXQ` (10_state.md R31). -/
def takeItems (s : State) (n : Nat) : State := { s with txq := s.txq.drop n }

/-- The reset event: every register of KIRC takes its reset value; the transport's queue, buffer and cursor stay
(10_state.md R39, 70_reset_and_hazards.md R230, R231). What the host has read, what is pending and the transport's
rule are not KIRC's and stay too (log 18). -/
def resetKirc (s : State) : State :=
  { s with
    txbuf := State.reset.txbuf
    rxbuf := State.reset.rxbuf
    rxshadow := State.reset.rxshadow
    csum := State.reset.csum
    statusValid := State.reset.statusValid
    statusMatch := State.reset.statusMatch
    statusBadcmd := State.reset.statusBadcmd }

/-- The transport's own reset: its queue is emptied, and it then holds a burst of its choice with the cursor at the
first pair (70_reset_and_hazards.md R231, D38; log 8). -/
def resetTransport (s : State) (burst : List PulsePair) : State := { s with txq := [], rxb := burst, rxcur := 0 }

end Sys2Proof.Machine
end

