-- ==== Sys2Proof/Machine/Step.lean ====
section
/-! DEFINITION. One step: the next input of the environment takes effect. -/

namespace Sys2Proof.Machine

/-- One step. A bus word is decoded and its transaction runs to its end before anything else happens (20_memory.md
R62, R69); an act of the transport or a reset falls between two transactions (R74, 70_reset_and_hazards.md R230);
with nothing pending KIRC waits (R230; log 9). -/
def step (s : State) : Host.Outcome State Fault Refusal :=
  match s.pending with
  | [] => .next s
  | .bus w :: rest => exec (decode w) { s with pending := rest }
  | .capture burst :: rest => .next (captureBurst { s with pending := rest } burst)
  | .receive more :: rest => .next (receiveMore { s with pending := rest } more)
  | .rewind :: rest => .next (rewindCursor { s with pending := rest })
  | .take n :: rest => .next (takeItems { s with pending := rest } n)
  | .reset :: rest => .next (resetKirc { s with pending := rest })
  | .transportReset burst :: rest => .next (resetTransport { s with pending := rest } burst)

/-- The state in which the host's next transaction is the word of a table row: it stands for the host issuing that
transaction (log 1). The bus has 17 lines (30_encoding.md R80). -/
def State.withFetchWord (s : State) (nbits w : Nat) : State :=
  { s with pending := .bus (BitVec.ofNat 17 (w % 2 ^ nbits)) :: s.pending }

end Sys2Proof.Machine
end

