-- ==== Sys2Proof/Machine/Assembler.lean ====
section
/-! DEFINITION. The assembler's lines, symbols and pseudo-instructions (30_encoding.md R87, R88), and the reader of
its text. It is notation: the machine never calls it. -/

namespace Sys2Proof.Machine

/-- An address as a line writes it: a number or a symbol (30_encoding.md R87). -/
inductive AsmAddr where
  | num (a : Byte)
  | txbuf (i : Fin 16)
  | rxbuf (i : Fin 16)
  | cmd
  | status
  | csum
  deriving DecidableEq, Repr

/-- A symbol's address (30_encoding.md R87). -/
def AsmAddr.value : AsmAddr → Byte
  | .num a => a
  | .txbuf i => BitVec.ofNat 8 i.val
  | .rxbuf i => BitVec.ofNat 8 (0x10 + i.val)
  | .cmd => 0x20#8
  | .status => 0x21#8
  | .csum => 0x22#8

/-- A line: a transaction form, a command mnemonic by its code, or a pseudo-instruction (30_encoding.md R87, R88). -/
inductive AsmLine where
  /-- `RD <addr>`. -/
  | rd (a : AsmAddr)
  /-- `WR <addr>, <byte>`. -/
  | wr (a : AsmAddr) (d : Byte)
  /-- A command mnemonic alone on its line, `NOP` to `DECODE`. -/
  | command (code : Fin 8)
  /-- `CMDRES <code>`, a reserved command, for tests. -/
  | cmdres (code : Byte)
  /-- `CLRBAD`. -/
  | clrbad
  /-- `LDTX b0, b1, ..., b15`. -/
  | ldtx (bytes : ProtocolState)
  /-- `SEND`. -/
  | send
  /-- `RECV`. -/
  | recv
  deriving DecidableEq, Repr

/-- `CMDRES` takes a code from 0x08 to 0xFF; every other line has its form already (30_encoding.md R88). -/
def AsmLine.wellFormed : AsmLine → Bool
  | .cmdres code => decide (8 ≤ code.toNat)
  | _ => true

/-- The words a line stands for, in order (30_encoding.md R87, R88). -/
def AsmLine.words : AsmLine → List BusWord
  | .rd a => [packWord false a.value 0x00#8]
  | .wr a d => [packWord true a.value d]
  | .command code => [commandWord (BitVec.ofNat 8 code.val)]
  | .cmdres code => [commandWord code]
  | .clrbad => [packWord true 0x21#8 0x04#8]
  | .ldtx bytes => (List.range 16).map fun i => packWord true (BitVec.ofNat 8 i) (byteAt bytes i)
  | .send => [commandWord 0x05#8, commandWord 0x06#8]
  | .recv => [commandWord 0x07#8, packWord false 0x21#8 0x00#8]

/-- A program is its lines' words in order; there are no labels (30_encoding.md R87). -/
def assemble (lines : List AsmLine) : List BusWord := lines.flatMap AsmLine.words

/-- The value of a digit below the base; upper and lower case hexadecimal digits are read alike (log 15). -/
def digitOf (base : Nat) (c : Char) : Option Nat :=
  let n := c.toNat
  let v :=
    if 48 ≤ n ∧ n ≤ 57 then n - 48
    else if 65 ≤ n ∧ n ≤ 70 then n - 55
    else if 97 ≤ n ∧ n ≤ 102 then n - 87
    else base
  if v < base then some v else none

/-- The value of digits, most significant first, from an accumulator. -/
def digitsOf (base : Nat) : List Char → Nat → Option Nat
  | [], acc => some acc
  | c :: rest, acc =>
    match digitOf base c with
    | some v => digitsOf base rest (acc * base + v)
    | none => none

/-- A number: hexadecimal with `0x`, or decimal (30_encoding.md R87). -/
def numberOf : List Char → Option Nat
  | [] => none
  | '0' :: 'x' :: c :: rest => digitsOf 16 (c :: rest) 0
  | c :: rest => digitsOf 10 (c :: rest) 0

/-- A number that fits a byte. -/
def byteOf (t : List Char) : Option Byte :=
  match numberOf t with
  | some n => if n < 256 then some (BitVec.ofNat 8 n) else none
  | none => none

/-- The index of a buffer symbol, 0 to 15 (30_encoding.md R87). -/
def indexOf (t : List Char) : Option (Fin 16) :=
  match numberOf t with
  | some n => if h : n < 16 then some ⟨n, h⟩ else none
  | none => none

/-- An address: a symbol or a number (30_encoding.md R87). -/
def asmAddrOf : List Char → Option AsmAddr
  | 'T' :: 'X' :: 'B' :: 'U' :: 'F' :: '+' :: t => (indexOf t).map .txbuf
  | 'R' :: 'X' :: 'B' :: 'U' :: 'F' :: '+' :: t => (indexOf t).map .rxbuf
  | ['C', 'M', 'D'] => some .cmd
  | ['S', 'T', 'A', 'T', 'U', 'S'] => some .status
  | ['C', 'S', 'U', 'M'] => some .csum
  | t => (byteOf t).map .num

/-- A line's text up to its comment (30_encoding.md R87). -/
def stripComment : List Char → List Char
  | [] => []
  | c :: rest => if c = ';' then [] else c :: stripComment rest

/-- The line cut into words and commas: a comma is a word of its own, spaces and tabs part words (log 15). The
second argument is the word being read, backwards. -/
def tokensFrom : List Char → List Char → List (List Char)
  | [], [] => []
  | [], cur => [cur.reverse]
  | c :: rest, cur =>
    let done := if cur.isEmpty then [] else [cur.reverse]
    if c = ' ' ∨ c = '\t' then done ++ tokensFrom rest []
    else if c = ',' then done ++ [','] :: tokensFrom rest []
    else tokensFrom rest (c :: cur)

/-- Bytes parted by commas. -/
def byteListOf : List (List Char) → Option (List Byte)
  | [] => none
  | [t] => (byteOf t).map fun b => [b]
  | t :: sep :: rest =>
    if sep = [','] then
      match byteOf t, byteListOf rest with
      | some b, some bs => some (b :: bs)
      | _, _ => none
    else none

/-- The 16 bytes of an `LDTX`; another count is no line (30_encoding.md R88). -/
def stateOf (bs : List Byte) : Option ProtocolState :=
  if h : bs.toArray.size = 16 then some ⟨bs.toArray, h⟩ else none

/-- One line's meaning: `some none` where it holds nothing, `none` where it is no line (30_encoding.md R87, R88). -/
def lineOf (tokens : List (List Char)) : Option (Option AsmLine) :=
  match tokens with
  | [] => some none
  | [['N', 'O', 'P']] => some (some (.command 0))
  | [['C', 'L', 'E', 'A', 'R']] => some (some (.command 1))
  | [['C', 'S', 'U', 'M', '0']] => some (some (.command 2))
  | [['C', 'S', 'U', 'M', '1']] => some (some (.command 3))
  | [['V', 'A', 'L', 'I', 'D', 'A', 'T', 'E']] => some (some (.command 4))
  | [['F', 'I', 'N', 'A', 'L', 'I', 'Z', 'E']] => some (some (.command 5))
  | [['E', 'N', 'C', 'O', 'D', 'E']] => some (some (.command 6))
  | [['D', 'E', 'C', 'O', 'D', 'E']] => some (some (.command 7))
  | [['C', 'L', 'R', 'B', 'A', 'D']] => some (some .clrbad)
  | [['S', 'E', 'N', 'D']] => some (some .send)
  | [['R', 'E', 'C', 'V']] => some (some .recv)
  | [['R', 'D'], a] => (asmAddrOf a).map fun x => some (.rd x)
  | [['C', 'M', 'D', 'R', 'E', 'S'], c] =>
    match byteOf c with
    | some code => if 8 ≤ code.toNat then some (some (.cmdres code)) else none
    | none => none
  | [['W', 'R'], a, [','], d] =>
    match asmAddrOf a, byteOf d with
    | some x, some v => some (some (.wr x v))
    | _, _ => none
  | ['L', 'D', 'T', 'X'] :: rest =>
    match byteListOf rest with
    | some bs => (stateOf bs).map fun B => some (.ldtx B)
    | none => none
  | _ => none

/-- The lines of a text, from the line being read, backwards. What ends a line is the model's choice: a line feed and
nothing else, so a carriage return is a character of the word it stands in (30_encoding.md R87 says only that a program
is a sequence of lines; log 15). -/
def linesFrom : List Char → List Char → List (List Char)
  | [], cur => [cur.reverse]
  | c :: rest, cur => if c = '\n' then cur.reverse :: linesFrom rest [] else linesFrom rest (c :: cur)

/-- The meanings of lines, in order; `none` where one is no line. -/
def parseLines : List (List Char) → Option (List AsmLine)
  | [] => some []
  | l :: rest =>
    match lineOf (tokensFrom (stripComment l) []), parseLines rest with
    | some (some x), some xs => some (x :: xs)
    | some none, some xs => some xs
    | _, _ => none

/-- The words of a program text (30_encoding.md R87, R88). -/
def assembleText (text : List Char) : Option (List BusWord) :=
  (parseLines (linesFrom text [])).map assemble

end Sys2Proof.Machine
end

