-- ==== Sys2Proof/Safety.lean ====
section
/-! DEFINITION. The terms the claims use: what the spec says of every state, the declarative reading of a received
burst, durations, and single-bit changes. -/

namespace Sys2Proof.Machine

/-- The cursor is bounded by the length of `RXB` (41_integrity.md R130). -/
abbrev State.CursorInBounds (s : State) : Prop := s.rxcur ≤ s.rxb.length

/-- An item KIRC may have emitted: the one carrier frequency, or one of the five pairs (42_pulse_codec.md R152,
R157). -/
def TxItem.legal : TxItem → Bool
  | .carrier hz => hz == 38000#32
  | .pair p => [⟨9010#16, 4505#16⟩, ⟨680#16, 1530#16⟩, ⟨680#16, 510#16⟩, ⟨680#16, 19975#16⟩, ⟨680#16, 39950#16⟩].contains p

/-- Every item of `TXQ` is one KIRC may have emitted: only ENCODE appends (10_state.md R31). -/
abbrev State.TxqLegal (s : State) : Prop := ∀ item ∈ s.txq, item.legal = true

/-- An item's duration in microseconds; a carrier item takes none (42_pulse_codec.md R165). -/
def TxItem.durationUs : TxItem → Nat
  | .carrier _ => 0
  | .pair p => p.markUs.toNat + p.spaceUs.toNat

/-- The sum of all mark and space durations of a list of items (42_pulse_codec.md R165). -/
def totalUs (items : List TxItem) : Nat := (items.map TxItem.durationUs).sum

/-- How many of the 128 bits of a state are 1, `n1` of 42_pulse_codec.md R165. -/
def oneBits (B : ProtocolState) : Nat :=
  ((List.range 16).map fun n => ((List.range 8).filter fun b => (byteAt B n).getLsbD b).length).sum

/-- Where bit `b` of byte `n` stands among the 140 pairs of a transmission, from 0 (95_test_vectors.md,
conventions). -/
def dataIndex (n b : Nat) : Nat :=
  70 * (n / 8) + (if n % 8 < 4 then 1 + 8 * (n % 8) + b else 37 + 8 * (n % 8 - 4) + b)

/-- The targets DECODE tries at each pair of a message, in order (42_pulse_codec.md R166, R168). -/
def messageTargets (k : Nat) : List (List PulsePair) :=
  [[headerPair]] ++ List.replicate 32 [onePair, zeroPair] ++ [[zeroPair], [onePair], [zeroPair], [gapPair]]
    ++ List.replicate 32 [onePair, zeroPair] ++ [[terminatingPair k]]

/-- The targets of the 140 pairs of a transmission. -/
def burstTargets : List (List PulsePair) := messageTargets 0 ++ messageTargets 1

/-- How many received pairs, from the first, are accepted by a target of their place: what DECODE consumes
(42_pulse_codec.md R170, R171). -/
def consumedPairs (m : MatchFn) : List (List PulsePair) → List PulsePair → Nat
  | targets :: restT, o :: rest =>
    if targets.any (fun e => m.accepts e o) then consumedPairs m restT rest + 1 else 0
  | _, _ => 0

/-- The pairs `Expect` would compare from now on (42_pulse_codec.md R154). -/
def State.ahead (s : State) : List PulsePair := s.rxb.drop s.rxcur

/-- The bit a received data pair is read as: 1 exactly when the one-space target accepts it (42_pulse_codec.md
R166). -/
def receivedBit (m : MatchFn) (ahead : List PulsePair) (n b : Nat) : Bool :=
  match ahead[dataIndex n b]? with
  | some o => m.accepts onePair o
  | none => false

/-- The byte read from the eight data pairs of byte `n`. -/
def receivedByte (m : MatchFn) (ahead : List PulsePair) (n : Nat) : Byte :=
  (List.range 8).foldl (fun v b => setBitTo v b (receivedBit m ahead n b)) 0x00#8

/-- The 16 bytes read from a burst, each bit from its own pair. -/
def receivedState (m : MatchFn) (ahead : List PulsePair) : ProtocolState :=
  (List.range 16).foldl (fun B n => setByte B n (receivedByte m ahead n)) zeroState

/-- Bit `b` of byte `n` lies in a nibble the checksum of its block sums (41_integrity.md R121). -/
def inSummedNibble (n b : Nat) : Bool :=
  decide (n < 16) && (decide (n % 8 < 4) && decide (b < 4) ||
    decide (4 ≤ n % 8) && decide (n % 8 < 7) && decide (4 ≤ b) && decide (b < 8))

/-- Bit `b` of byte `n` lies in a stored checksum nibble, `Sum1` or `Sum2` (10_state.md R36). -/
def inStoredNibble (n b : Nat) : Bool :=
  (decide (n = 7) || decide (n = 15)) && decide (4 ≤ b) && decide (b < 8)

/-- A state with bit `b` of byte `n` flipped. -/
def flipBit (B : ProtocolState) (n b : Nat) : ProtocolState :=
  setByte B n (byteAt B n ^^^ (0x01#8 <<< b))

/-- Every register of KIRC itself (10_state.md R20, the rows owned by KIRC) has the same value in both states. -/
abbrev State.SameKirc (s t : State) : Prop :=
  t.txbuf = s.txbuf ∧ t.rxbuf = s.rxbuf ∧ t.rxshadow = s.rxshadow ∧ t.csum = s.csum ∧
    t.statusValid = s.statusValid ∧ t.statusMatch = s.statusMatch ∧ t.statusBadcmd = s.statusBadcmd

end Sys2Proof.Machine
end

