-- ==== Sys2Proof/Certificates/Slice0/Obligations.lean ====
section
/-! DEFINITION. The statements for the provers, one definition each. -/

open Sys2Proof Sys2Proof.Machine

/-! ### Transactions and their words -/

/-- A transaction that the host issues is the decoded instruction's `exec`, with that transaction taken from what is
pending; nothing else happens in the step (20_memory.md R62, 30_encoding.md R86; how a transaction is issued is log 1). -/
def Obligations.StepRunsTheDecodedTransaction : Prop :=
  ∀ (s : State) (w : BusWord) (rest : List Input) (i : Instr), s.pending = .bus w :: rest → decode w = i →
    i.wellFormed = true → step s = exec i { s with pending := rest }

/-- One word of every row of the opcode table, as 30_encoding.md R83 and 95_test_vectors.md write it, decodes to its
transaction. -/
def Obligations.WrittenOutWordsDecode : Prop :=
  decode 0b10010000000000000#17 = .nop ∧ decode 0b10010000000000001#17 = .clear ∧
    decode 0b10010000000000010#17 = .csum0 ∧ decode 0b10010000000000011#17 = .csum1 ∧
    decode 0b10010000000000100#17 = .validate ∧ decode 0b10010000000000101#17 = .finalize ∧
    decode 0b10010000000000110#17 = .encode ∧ decode 0b10010000000000111#17 = .decode ∧
    decode 0b10010000000001000#17 = .cmdReserved 0x08#8 ∧ decode 0b10000010110101011#17 = .wr 0x05#8 0xAB#8 ∧
    decode 0b00010000100000000#17 = .rd 0x21#8

/-- Decoding and encoding agree in both directions: a well-formed instruction's word decodes to it, and every word is
the word of its (well-formed) instruction, but that an RD is written with DATA 0x00 (30_encoding.md R80, R86). -/
def Obligations.DecodeAndEncodeAgree : Prop :=
  (∀ i : Instr, i.wellFormed = true → decode (encode i) = i) ∧
    ∀ w : BusWord, (decode w).wellFormed = true ∧
      encode (decode w) = if weOf w then w else packWord false (addrOf w) 0x00#8

/-- The first row of the opcode table a word fits is the row of what it decodes to (30_encoding.md R86). -/
def Obligations.DecodeFollowsTheTablesPrecedence : Prop :=
  ∀ w : BusWord, (opcodeRowOf w).map OpcodeRow.mnemonic = some (decode w).mnemonic

/-- A number of more than 17 bits is rejected by name and every other number decodes (30_encoding.md R85; the
rejection is the model's, log 11). -/
def Obligations.OnlyBusWordsDecode : Prop :=
  ∀ n : Nat, (2 ^ 17 ≤ n → decodeNat n = .error .notABusWord) ∧
    (n < 2 ^ 17 → decodeNat n = .ok (decode (BitVec.ofNat 17 n)))

/-- The two kinds of term that stand for no word are refused by name: the model's choice, log 11. -/
def Obligations.IllFormedTermsAreRefused : Prop :=
  ∀ s : State, (∀ d : Byte, exec (.wr 0x20#8 d) s = .refused (.illFormed "WR")) ∧
    ∀ c : Byte, c.toNat < 8 → exec (.cmdReserved c) s = .refused (.illFormed "CMD_RESERVED")

/-- No event stops KIRC: every step of every state answers a next state (60_exceptions.md R200, R204). -/
def Obligations.NoStepStopsTheMachine : Prop :=
  ∀ s : State, ∃ t : State, step s = .next t

/-- With nothing pending the machine waits in its state (70_reset_and_hazards.md R230; the form of the wait is the
model's, log 9). -/
def Obligations.NothingPendingWaits : Prop :=
  ∀ s : State, s.pending = [] → step s = .next s

/-! ### RD, WR, NOP, CLEAR -/

/-- `RD`, whatever its word's DATA bits, returns the register's byte and changes nothing else (40_host_access.md
R101). That the byte is kept in `hostReads` is the model's, log 2. -/
def Obligations.ReadReturnsTheRegister : Prop :=
  ∀ (a x : Byte) (s : State), decode (0#1 ++ a ++ x) = .rd a ∧ exec (.rd a) s = .next { s with hostReads := s.hostReads ++ [
    if a.toNat ≤ 0x0F then byteAt s.txbuf a.toNat
    else if a.toNat ≤ 0x1F then byteAt s.rxbuf (a.toNat - 0x10)
    else if a = 0x21#8 then
      BitVec.ofNat 8 (4 * s.statusBadcmd.toNat + 2 * s.statusMatch.toNat + s.statusValid.toNat)
    else if a = 0x22#8 then BitVec.ofNat 8 s.csum.toNat
    else 0x00#8] }

/-- `WR` stores a byte of `TXBUF`, or clears `BADCMD` when bit 2 of the data is 1 at 0x21, or has no effect
(40_host_access.md R102). -/
def Obligations.WriteHasItsEffectOnly : Prop :=
  ∀ (a d : Byte) (s : State), a ≠ 0x20#8 → decode (1#1 ++ a ++ d) = .wr a d ∧
    (a.toNat ≤ 0x0F → ∃ T : ProtocolState, exec (.wr a d) s = .next { s with txbuf := T } ∧
      ∀ n : Nat, byteAt T n = if n = a.toNat then d else byteAt s.txbuf n) ∧
    (a = 0x21#8 → exec (.wr a d) s =
      .next { s with statusBadcmd := if d.getLsbD 2 then false else s.statusBadcmd }) ∧
    (0x0F < a.toNat → a ≠ 0x21#8 → exec (.wr a d) s = .next s)

/-- What every address reads after a `WR`: the byte written at its own address in `TXBUF`, `STATUS` without `BADCMD`
after an acknowledgement, and everywhere else what it read before (20_memory.md R63, R64). -/
def Obligations.RegisterSpaceAfterAWrite : Prop :=
  ∀ (a d b : Byte) (s : State), a ≠ 0x20#8 → ∃ t : State, exec (.wr a d) s = .next t ∧
    readReg t b =
      if b = a ∧ a.toNat ≤ 0x0F then d
      else if b = 0x21#8 ∧ a = 0x21#8 ∧ d.getLsbD 2 = true then readReg s b &&& 0x03#8
      else readReg s b

/-- An `RD` changes no register and no part of the transport's state: every address reads as before
(20_memory.md R64). -/
def Obligations.ReadsHaveNoSideEffects : Prop :=
  ∀ (a : Byte) (s : State), ∃ t : State, exec (.rd a) s = .next t ∧ s.SameKirc t ∧ t.txq = s.txq ∧ t.rxb = s.rxb ∧
    t.rxcur = s.rxcur ∧ (∀ b : Byte, readReg t b = readReg s b) ∧
    ∃ u : State, exec (.rd a) t = .next u ∧ u.hostReads = s.hostReads ++ [readReg s a, readReg s a]

/-- `NOP`, word 0x12000, leaves every state as it is (40_host_access.md R103). -/
def Obligations.NopChangesNothing : Prop :=
  decode 0x12000#17 = .nop ∧ ∀ s : State, exec .nop s = .next s

/-- `CLEAR`, word 0x12001, makes every byte of `TXBUF` 0x00, which is not valid, changes nothing else, and is
idempotent (40_host_access.md R104). -/
def Obligations.ClearEmptiesTheTransmitBuffer : Prop :=
  decode 0x12001#17 = .clear ∧
    ∀ s : State, ∃ T : ProtocolState, exec .clear s = .next { s with txbuf := T } ∧ (∀ n < 16, byteAt T n = 0x00#8) ∧
      isValid T = false ∧ exec .clear { s with txbuf := T } = .next { s with txbuf := T }

/-- A write of code `c` to `CMD` executes the command whose code is `c`, whole, in the step of that write; `CMD` keeps no
value and reads 0x00 (10_state.md R30). -/
def Obligations.CmdWriteExecutesItsCommand : Prop :=
  (∀ (c : Byte) (s : State) (rest : List Input), s.pending = .bus (1#1 ++ 0x20#8 ++ c) :: rest → step s =
      exec (([.nop, .clear, .csum0, .csum1, .validate, .finalize, .encode, .decode] : List Instr)[c.toNat]?.getD
        (.cmdReserved c)) { s with pending := rest }) ∧
    ∀ s : State, exec (.rd 0x20#8) s = .next { s with hostReads := s.hostReads ++ [0x00#8] }

/-- The bits of `STATUS`, what a host write does to it, and which instruction writes each bit (10_state.md R26). -/
def Obligations.StatusRegisterIsAsLaidOut : Prop :=
  ∀ s : State,
    (∀ b : Nat, (readReg s 0x21#8).getLsbD b =
      if b = 0 then s.statusValid else if b = 1 then s.statusMatch else if b = 2 then s.statusBadcmd else false) ∧
    (∀ v : Byte, exec (.wr 0x21#8 v) s = .next (if v.getLsbD 2 then { s with statusBadcmd := false } else s)) ∧
    ∀ (i : Instr) (t : State), exec i s = .next t →
      (i ≠ .validate → t.statusValid = s.statusValid) ∧ (i ≠ .decode → t.statusMatch = s.statusMatch) ∧
      ((∀ c : Byte, i ≠ .cmdReserved c) → (∀ v : Byte, i ≠ .wr 0x21#8 v) → t.statusBadcmd = s.statusBadcmd)

/-- The bits of `CSUM`, that a host write of it is ignored, that only CSUM0 and CSUM1 write it, and that every value can
be its value (10_state.md R25). -/
def Obligations.CsumRegisterIsAsLaidOut : Prop :=
  (∀ s : State,
      (∀ b : Nat, (readReg s 0x22#8).getLsbD b = if b < 4 then s.csum.getLsbD b else false) ∧
      (∀ v : Byte, exec (.wr 0x22#8 v) s = .next s) ∧
      ∀ (i : Instr) (t : State), exec i s = .next t → i ≠ .csum0 → i ≠ .csum1 → t.csum = s.csum) ∧
    ∀ c : Nibble, ∃ s t : State, exec .csum0 s = .next t ∧ t.csum = c

/-- `RXBUF` is read at 0x10 to 0x1F, host writes there are ignored, and only a DECODE that ends in a match writes it, all
16 bytes at once (10_state.md R23). -/
def Obligations.ReceiveBufferHoldsTheLastMatch : Prop :=
  ∀ s : State,
    (∀ n < 16, exec (.rd (BitVec.ofNat 8 (0x10 + n))) s =
        .next { s with hostReads := s.hostReads ++ [byteAt s.rxbuf n] } ∧
      ∀ v : Byte, exec (.wr (BitVec.ofNat 8 (0x10 + n)) v) s = .next s) ∧
    ∀ (i : Instr) (t : State), exec i s = .next t →
      t.rxbuf = if i = .decode ∧ t.statusMatch = true then t.rxshadow else s.rxbuf

/-! ### The checksum engine -/

/-- `CSUM0` and `CSUM1`, words 0x12002 and 0x12003, put ten plus the low nibbles of the first four bytes and the high nibbles of the next three,
modulo 16, into `CSUM.SUM`, and change nothing else (41_integrity.md R120, R123, R124). -/
def Obligations.ChecksumCommandsStoreTheNibbleSum : Prop :=
  decode 0x12002#17 = .csum0 ∧ decode 0x12003#17 = .csum1 ∧ ∀ s : State,
    (exec .csum0 s = .next { s with csum := BitVec.ofNat 4 ((10 + (lo4 (byteAt s.txbuf 0)).toNat
      + (lo4 (byteAt s.txbuf 1)).toNat + (lo4 (byteAt s.txbuf 2)).toNat + (lo4 (byteAt s.txbuf 3)).toNat
      + (hi4 (byteAt s.txbuf 4)).toNat + (hi4 (byteAt s.txbuf 5)).toNat + (hi4 (byteAt s.txbuf 6)).toNat) % 16) }) ∧
    (exec .csum1 s = .next { s with csum := BitVec.ofNat 4 ((10 + (lo4 (byteAt s.txbuf 8)).toNat
      + (lo4 (byteAt s.txbuf 9)).toNat + (lo4 (byteAt s.txbuf 10)).toNat + (lo4 (byteAt s.txbuf 11)).toNat
      + (hi4 (byteAt s.txbuf 12)).toNat + (hi4 (byteAt s.txbuf 13)).toNat + (hi4 (byteAt s.txbuf 14)).toNat) % 16) })

/-- The sum is exact, from 10 to 115, and the checksum is its low four bits: the spec's own inference in 41_integrity.md
R120 and R130. -/
def Obligations.ChecksumSumIsExact : Prop :=
  ∀ (B : ProtocolState) (o : Nat), 10 ≤ checksumSum B o ∧ checksumSum B o ≤ 115 ∧
    (checksum B o).toNat = checksumSum B o % 16

/-- One flipped bit changes the checksum of its block exactly when it lies in a summed nibble, and never that of the
other block: the spec's own inference (41_integrity.md R121, R128) from R120. -/
def Obligations.SingleBitFlipIsDetectedInSummedNibbles : Prop :=
  ∀ (B : ProtocolState) (n b : Nat), n < 16 → b < 8 →
    (checksum (flipBit B n b) (8 * (n / 8)) ≠ checksum B (8 * (n / 8)) ↔ inSummedNibble n b = true) ∧
    checksum (flipBit B n b) (8 * (1 - n / 8)) = checksum B (8 * (1 - n / 8))

/-- `VALIDATE`, word 0x12004, writes `VALID` alone: whether both stored nibbles equal the checksums of `TXBUF` (41_integrity.md R122,
R127). -/
def Obligations.ValidateStoresValidity : Prop :=
  decode 0x12004#17 = .validate ∧ ∀ s : State, exec .validate s = .next { s with
    statusValid := decide (hi4 (byteAt s.txbuf 7) = checksum s.txbuf 0 ∧ hi4 (byteAt s.txbuf 15) = checksum s.txbuf 8) }

/-- `VALID` is a snapshot: VALIDATE writes it, and no other instruction changes it, whatever it writes to `TXBUF`
(10_state.md R27). -/
def Obligations.ValidIsASnapshot : Prop :=
  ∀ s : State, (∃ t : State, exec .validate s = .next t ∧ t.statusValid = isValid s.txbuf) ∧
    ∀ (i : Instr) (t : State), exec i s = .next t → i ≠ .validate → t.statusValid = s.statusValid

/-- Validity reads the summed nibbles and the two stored nibbles, and nothing else: not the markers, the mirror or any
field's range (41_integrity.md R121, R122, R129). -/
def Obligations.ValidityReadsNothingElse : Prop :=
  ∀ A B : ProtocolState,
    (∀ n < 16, ∀ b < 8, (inSummedNibble n b || inStoredNibble n b) = true →
      (byteAt A n).getLsbD b = (byteAt B n).getLsbD b) → isValid A = isValid B

/-- Every byte after `FINALIZE`, word 0x12005; the result is valid, and nothing but `TXBUF` changes (41_integrity.md
R125). -/
def Obligations.FinalizeWritesItsBytes : Prop :=
  decode 0x12005#17 = .finalize ∧ ∀ s : State, ∃ T : ProtocolState, exec .finalize s = .next { s with txbuf := T } ∧
    (∀ n : Nat, n ∈ [0, 1, 4, 5, 6, 12, 13, 14] → byteAt T n = byteAt s.txbuf n) ∧
    byteAt T 2 = (if (byteAt s.txbuf 0).toNat % 8 = 1 ∨ (byteAt s.txbuf 0).toNat % 8 = 2 then byteAt s.txbuf 2
      else byteAt s.txbuf 2 &&& 0x7F#8) ∧
    byteAt T 3 = 0x50#8 ∧ byteAt T 11 = 0x70#8 ∧
    byteAt T 8 = byteAt T 0 ∧ byteAt T 9 = byteAt T 1 ∧ byteAt T 10 = byteAt T 2 ∧
    hi4 (byteAt T 7) = checksum T 0 ∧ lo4 (byteAt T 7) = lo4 (byteAt s.txbuf 7) ∧
    hi4 (byteAt T 15) = checksum T 8 ∧ lo4 (byteAt T 15) = lo4 (byteAt s.txbuf 15) ∧ isValid T = true

/-- `FINALIZE` twice is `FINALIZE` once, and its result is valid: the spec's own inference (41_integrity.md R126) from
R122 and R125. -/
def Obligations.FinalizeIsIdempotentAndValid : Prop :=
  ∀ s : State, ∃ t : State, exec .finalize s = .next t ∧ exec .finalize t = .next t ∧ isValid t.txbuf = true

/-- The spec's own inference in 20_memory.md R64. Repeating `NOP`, `CLEAR`, `CSUM0`, `CSUM1`, `VALIDATE`, `FINALIZE` or a reserved code leaves the state of one
run. -/
def Obligations.RepeatedCommandsLeaveOneRunsState : Prop :=
  ∀ (i : Instr) (s : State),
    (i ∈ [.nop, .clear, .csum0, .csum1, .validate, .finalize] ∨ ∃ c : Byte, 8 ≤ c.toNat ∧ i = .cmdReserved c) →
    ∃ t : State, exec i s = .next t ∧ exec i t = .next t

/-! ### BadCmd and who writes what -/

/-- A reserved code, word 0x12000 | c, sets `BADCMD` and changes nothing else (60_exceptions.md R201). -/
def Obligations.ReservedCodeRaisesBadCmd : Prop :=
  ∀ (c : Byte) (s : State), 8 ≤ c.toNat → decode (1#1 ++ 0x20#8 ++ c) = .cmdReserved c ∧ exec (.cmdReserved c) s = .next { s with statusBadcmd := true }

/-- `BADCMD` after any transaction: 1 after a reserved code, 0 after a write of 0x21 with bit 2 set, else as before
(10_state.md R29). -/
def Obligations.BadcmdIsStickyUntilAcknowledged : Prop :=
  ∀ (i : Instr) (s t : State), exec i s = .next t →
    ((∃ c : Byte, i = .cmdReserved c) → t.statusBadcmd = true) ∧
    ((∃ d : Byte, i = .wr 0x21#8 d ∧ d.getLsbD 2 = true) → t.statusBadcmd = false) ∧
    ((∀ c : Byte, i ≠ .cmdReserved c) → (∀ d : Byte, i = .wr 0x21#8 d → d.getLsbD 2 = false) →
      t.statusBadcmd = s.statusBadcmd)

/-- Each piece of state is written by its own transactions only: `TXBUF` by CLEAR, FINALIZE and a `WR` of its range,
`RXBUF`, `RXSHADOW`, `RXCUR` and `MATCH` by DECODE, `CSUM` by CSUM0 and CSUM1, `VALID` by VALIDATE, `BADCMD` by
CMD_RESERVED and a `WR` of 0x21, `TXQ` by ENCODE, the bytes returned to the host by RD; `RXB`, the tolerance and what is
pending by none; and no instruction rewinds `RXCUR` or advances it by more than 140 (10_state.md R22 to R25, R27 to R29,
R31, R32, 42_pulse_codec.md R156; the 140 is the spec's inference in 41_integrity.md R130; that the host's bytes, the
tolerance and what is pending are fields is the model's, log 1, 2, 3). -/
def Obligations.EachRegisterHasItsWriters : Prop :=
  ∀ (i : Instr) (s t : State), exec i s = .next t →
    (i ≠ .clear → i ≠ .finalize → (∀ a d : Byte, i = .wr a d → 0x0F < a.toNat) → t.txbuf = s.txbuf) ∧
    (i ≠ .decode → t.rxbuf = s.rxbuf ∧ t.rxshadow = s.rxshadow ∧ t.rxcur = s.rxcur ∧ t.statusMatch = s.statusMatch) ∧
    (i ≠ .csum0 → i ≠ .csum1 → t.csum = s.csum) ∧
    (i ≠ .validate → t.statusValid = s.statusValid) ∧
    ((∀ c : Byte, i ≠ .cmdReserved c) → (∀ d : Byte, i ≠ .wr 0x21#8 d) → t.statusBadcmd = s.statusBadcmd) ∧
    (i ≠ .encode → t.txq = s.txq) ∧
    ((∀ a : Byte, i ≠ .rd a) → t.hostReads = s.hostReads) ∧
    (t.rxb = s.rxb ∧ t.matchFn = s.matchFn ∧ t.pending = s.pending) ∧ s.rxcur ≤ t.rxcur ∧ t.rxcur ≤ s.rxcur + 140

/-- KIRC only appends to `TXQ`, only ENCODE appends, and no instruction reads what the queue holds: with another queue it
does the same and appends the same items (10_state.md R31). -/
def Obligations.TransmitQueueIsOnlyAppendedTo : Prop :=
  ∀ (i : Instr) (s t : State) (q : List TxItem), exec i s = .next t →
    ∃ L : List TxItem, t.txq = s.txq ++ L ∧ (i ≠ .encode → L = []) ∧
      exec i { s with txq := q } = .next { t with txq := q ++ L }

/-- No command reads `RXBUF`: from states that differ in it alone, a command's next states agree in everything else
(92_eei_decisions.md D36). -/
def Obligations.CommandsDoNotReadTheReceiveBuffer : Prop :=
  ∀ (i : Instr) (s t : State) (R : ProtocolState), (∀ a : Byte, i ≠ .rd a) → exec i s = .next t →
    ∃ t' : State, exec i { s with rxbuf := R } = .next t' ∧ { t' with rxbuf := t.rxbuf } = t

/-- DECODE neither reads nor writes `TXBUF` (10_state.md R22), nor `TXQ`, `CSUM`, `VALID` or `BADCMD`
(42_pulse_codec.md R169). -/
def Obligations.DecodeIsIndependentOfTheTransmitSide : Prop :=
  ∀ (s : State) (B : ProtocolState) (q : List TxItem) (c : Nibble) (v b : Bool), ∃ t : State,
    exec .decode s = .next t ∧
    exec .decode { s with txbuf := B, txq := q, csum := c, statusValid := v, statusBadcmd := b } =
      .next { t with txbuf := B, txq := q, csum := c, statusValid := v, statusBadcmd := b }

/-! ### ENCODE -/

/-- `ENCODE`, word 0x12006, appends `Carrier(38000)` and the 140 pairs of the message table, each in its place, and changes nothing
else; item `j + 1` is pair `j` (42_pulse_codec.md R160, R161, R163, R164). -/
def Obligations.EncodeAppendsTheMessageTable : Prop :=
  decode 0x12006#17 = .encode ∧ ∀ s : State, ∃ L : List TxItem, exec .encode s = .next { s with txq := s.txq ++ L } ∧ L.length = 141 ∧
    L[0]? = some (.carrier 38000#32) ∧
    (∀ k < 2, L[1 + 70 * k]? = some (.pair ⟨9010#16, 4505#16⟩) ∧ L[34 + 70 * k]? = some (.pair ⟨680#16, 510#16⟩) ∧
      L[35 + 70 * k]? = some (.pair ⟨680#16, 1530#16⟩) ∧ L[36 + 70 * k]? = some (.pair ⟨680#16, 510#16⟩) ∧
      L[37 + 70 * k]? = some (.pair ⟨680#16, 19975#16⟩)) ∧
    L[70]? = some (.pair ⟨680#16, 19975#16⟩) ∧ L[140]? = some (.pair ⟨680#16, 39950#16⟩) ∧
    ∀ n < 16, ∀ b < 8, L[1 + dataIndex n b]? =
      some (.pair ⟨680#16, if (byteAt s.txbuf n).getLsbD b then 1530#16 else 510#16⟩)

/-- The counts and the total duration of an `ENCODE`, with `n1` the number of 1 bits of `TXBUF`: the spec's own inference
(42_pulse_codec.md R165) from R162 to R164. -/
def Obligations.EncodeCountsAndDuration : Prop :=
  ∀ s : State, ∃ L : List TxItem, exec .encode s = .next { s with txq := s.txq ++ L } ∧
    L.length = 141 ∧
    (L.filter fun x => match x with | .carrier _ => true | .pair _ => false).length = 1 ∧
    (L.filter fun x => match x with | .carrier _ => false | .pair p => p.markUs == 680#16).length = 138 ∧
    (L.filter fun x => match x with | .carrier _ => false | .pair p => p.markUs == 9010#16).length = 2 ∧
    totalUs L = 291125 + 1020 * oneBits s.txbuf ∧ 291125 ≤ totalUs L ∧ totalUs L ≤ 421685

/-- `SEND` is FINALIZE and then ENCODE, and what it transmits is a valid state's burst (30_encoding.md R88,
41_integrity.md R122, R125, 42_pulse_codec.md R164). -/
def Obligations.SendTransmitsAValidState : Prop :=
  AsmLine.send.words.map decode = [.finalize, .encode] ∧
    ∀ s : State, ∃ t u : State, exec .finalize s = .next t ∧ exec .encode t = .next u ∧ isValid t.txbuf = true ∧
      u.txq = s.txq ++ (.carrier 38000#32 :: (burstPairs t.txbuf).map .pair)

/-! ### DECODE -/

/-- `Expect` advances the cursor only on a match; a pair that is not accepted, or an exhausted buffer, leaves the state
as it is (42_pulse_codec.md R154). -/
def Obligations.ExpectAdvancesOnlyOnAMatch : Prop :=
  ∀ (e : PulsePair) (s : State),
    (∀ h : s.rxcur < s.rxb.length,
      expect e s = if s.matchFn.accepts e s.rxb[s.rxcur] then (true, { s with rxcur := s.rxcur + 1 }) else (false, s)) ∧
    (s.rxb.length ≤ s.rxcur → expect e s = (false, s))

/-- `DecodeBit` tries the one-space first, then the zero-space, and reads nothing when neither matches or no pair is
left (42_pulse_codec.md R166). -/
def Obligations.DecodeBitTriesTheOneSpaceFirst : Prop :=
  ∀ s : State, (∀ h : s.rxcur < s.rxb.length, decodeBit s =
      if s.matchFn.accepts ⟨680#16, 1530#16⟩ s.rxb[s.rxcur] then (some true, { s with rxcur := s.rxcur + 1 })
      else if s.matchFn.accepts ⟨680#16, 510#16⟩ s.rxb[s.rxcur] then (some false, { s with rxcur := s.rxcur + 1 })
      else (none, s)) ∧
    (s.rxb.length ≤ s.rxcur → decodeBit s = (none, s))

/-- DECODE is the declarative decoder: the pairs ahead are consumed up to the first that no target of its place
accepts; only when all 140 are, and the state they spell is valid, is there a match (42_pulse_codec.md R166 to R170, R172).
What a broken-off decode leaves in `RXSHADOW`, which nothing reads, is not said here (log 5). -/
def Obligations.DecodeIsTheDeclarativeDecoder : Prop :=
  ∀ s : State,
    (consumedPairs s.matchFn burstTargets s.ahead = 140 →
      exec .decode s = .next
        (if isValid (receivedState s.matchFn s.ahead) then
          { s with rxbuf := receivedState s.matchFn s.ahead, rxshadow := receivedState s.matchFn s.ahead,
                   statusMatch := true, rxcur := s.rxcur + 140 }
        else
          { s with rxshadow := receivedState s.matchFn s.ahead, statusMatch := false, rxcur := s.rxcur + 140 })) ∧
    (consumedPairs s.matchFn burstTargets s.ahead ≠ 140 →
      ∃ sh : ProtocolState, exec .decode s = .next
        { s with rxshadow := sh, statusMatch := false,
                 rxcur := s.rxcur + consumedPairs s.matchFn burstTargets s.ahead })

/-- `MATCH` after a DECODE: on 1, `RXBUF` is a valid state and the cursor is 140 further; on 0, `RXBUF` is as it was and
the cursor stands where the pairs ended or at a pair that no target of its place accepts, at most 140 further
(42_pulse_codec.md R169, R170; where the cursor stands is the spec's own inference in R171). -/
def Obligations.DecodeOutcomeIsMatchOrNoMatch : Prop :=
  ∀ s : State, s.CursorInBounds → ∃ t : State, exec .decode s = .next t ∧ t.rxb = s.rxb ∧
    (t.statusMatch = true → isValid t.rxbuf = true ∧ t.rxbuf = t.rxshadow ∧ t.rxcur = s.rxcur + 140) ∧
    (t.statusMatch = false → t.rxbuf = s.rxbuf ∧ s.rxcur ≤ t.rxcur ∧ t.rxcur ≤ s.rxcur + 140 ∧ t.CursorInBounds ∧
      (t.rxcur < s.rxcur + 140 → ∀ o : PulsePair, t.rxb[t.rxcur]? = some o →
        ∃ targets : List PulsePair, burstTargets[t.rxcur - s.rxcur]? = some targets ∧ targets ≠ [] ∧
          ∀ e ∈ targets, s.matchFn.accepts e o = false))

/-- DECODE ends after the 140th pair: pairs behind the next 140 change nothing it does, but in `RXSHADOW`, which nothing
reads, where this does not say (42_pulse_codec.md R172; log 5). -/
def Obligations.TrailingPairsAreNotExamined : Prop :=
  ∀ (s : State) (extra : List PulsePair), 140 ≤ s.ahead.length → ∃ (t : State) (sh : ProtocolState),
    exec .decode s = .next t ∧
    exec .decode { s with rxb := s.rxb ++ extra } = .next { t with rxb := s.rxb ++ extra, rxshadow := sh } ∧
    (t.statusMatch = true → sh = t.rxshadow)

/-- An empty or exhausted receive buffer gives no match at once: the cursor does not move and `RXSHADOW` is all zero
(42_pulse_codec.md R154, R169). -/
def Obligations.DecodeOfAnExhaustedBufferIsNoMatch : Prop :=
  ∀ s : State, s.rxb.length ≤ s.rxcur →
    ∃ Z : ProtocolState, exec .decode s = .next { s with statusMatch := false, rxshadow := Z } ∧
      ∀ n < 16, byteAt Z n = 0x00#8

/-- Round trip: what ENCODE of a valid state emits, received from the cursor on, with anything after it, decodes to that
state, for every tolerance that accepts each emitted pair against itself and rejects a zero pair against the one
target; the burst of a state that is not valid gives no match: the spec's own inference (42_pulse_codec.md R174) from R163, R164,
R168 and R169. -/
def Obligations.EncodedStateDecodesToItself : Prop :=
  ∀ (s₀ t₀ s : State) (ps rest : List PulsePair), exec .encode s₀ = .next t₀ →
    t₀.txq = s₀.txq ++ (.carrier 38000#32 :: ps.map .pair) → s.ahead = ps ++ rest →
    (∀ p ∈ ps, s.matchFn.accepts p p = true) → s.matchFn.accepts ⟨680#16, 1530#16⟩ ⟨680#16, 510#16⟩ = false →
    (isValid s₀.txbuf = true → exec .decode s = .next
      { s with rxbuf := s₀.txbuf, rxshadow := s₀.txbuf, statusMatch := true, rxcur := s.rxcur + 140 }) ∧
    (isValid s₀.txbuf = false → exec .decode s = .next
      { s with rxshadow := s₀.txbuf, statusMatch := false, rxcur := s.rxcur + 140 })

/-- Under `MATCH_EXACT`, a correct burst with one header, footer or gap pair changed, or with a data pair changed to
neither bit's pair, gives no match, and the cursor stops at that pair: the spec's own inference (42_pulse_codec.md R171, R173) from R154,
R166, R168 and R169. -/
def Obligations.OneWrongPairGivesNoMatch : Prop :=
  ∀ (s : State) (B : ProtocolState) (i : Nat) (p : PulsePair) (rest : List PulsePair), s.matchFn = .exact →
    i < 140 → s.ahead = (burstPairs B).set i p ++ rest →
    ((i % 70 = 0 ∨ (33 ≤ i % 70 ∧ i % 70 ≤ 36) ∨ i % 70 = 69) → (burstPairs B)[i]? ≠ some p →
      ∃ sh : ProtocolState, exec .decode s = .next
        { s with rxshadow := sh, statusMatch := false, rxcur := s.rxcur + i }) ∧
    (((1 ≤ i % 70 ∧ i % 70 ≤ 32) ∨ (37 ≤ i % 70 ∧ i % 70 ≤ 68)) → p ≠ ⟨680#16, 1530#16⟩ → p ≠ ⟨680#16, 510#16⟩ →
      ∃ sh : ProtocolState, exec .decode s = .next
        { s with rxshadow := sh, statusMatch := false, rxcur := s.rxcur + i })

/-- Under `MATCH_EXACT`, a correct burst of a valid state with one data pair changed into the other bit's pair gives no
match when that bit lies in a summed nibble or in a stored checksum nibble, and otherwise a match with the flipped bit
in `RXBUF`: the spec's own inference (42_pulse_codec.md R173), but that a stored checksum nibble counts with the summed ones is the model's reading of R122 against the words of
that rule (log 12). -/
def Obligations.OneFlippedDataBit : Prop :=
  ∀ (s : State) (B : ProtocolState) (n b : Nat) (rest : List PulsePair), s.matchFn = .exact → isValid B = true →
    n < 16 → b < 8 →
    s.ahead = (burstPairs B).set (dataIndex n b) (bitPair (!(byteAt B n).getLsbD b)) ++ rest →
    exec .decode s = .next
      (if inSummedNibble n b || inStoredNibble n b then
        { s with rxshadow := flipBit B n b, statusMatch := false, rxcur := s.rxcur + 140 }
      else
        { s with rxbuf := flipBit B n b, rxshadow := flipBit B n b, statusMatch := true, rxcur := s.rxcur + 140 })

/-! ### Reset, the transport's acts, invariants -/

/-- Every register of KIRC after reset is zero and every address reads 0x00; the reset event gives every register of KIRC
that value and does not change `TXQ`, `RXB`, `RXCUR` (10_state.md R39). -/
def Obligations.ResetRegistersAreZero : Prop :=
  (∀ n < 16, byteAt State.reset.txbuf n = 0x00#8 ∧ byteAt State.reset.rxbuf n = 0x00#8 ∧
      byteAt State.reset.rxshadow n = 0x00#8) ∧
    State.reset.csum = 0x0#4 ∧ State.reset.statusValid = false ∧ State.reset.statusMatch = false ∧
    State.reset.statusBadcmd = false ∧ (∀ a : Byte, readReg State.reset a = 0x00#8) ∧
    ∀ (s : State) (rest : List Input), s.pending = .reset :: rest → ∃ t : State, step s = .next t ∧
      State.reset.SameKirc t ∧ t.txq = s.txq ∧ t.rxb = s.rxb ∧ t.rxcur = s.rxcur

/-- The reset event gives every register of KIRC its reset value and leaves the transport's queue, buffer and cursor
(70_reset_and_hazards.md R230, R231). What the host has read and the tolerance stay too: the model's, log 18. -/
def Obligations.ResetEventClearsKircAlone : Prop :=
  ∀ (s : State) (rest : List Input), s.pending = .reset :: rest →
    step s = .next { State.reset with
      txq := s.txq, rxb := s.rxb, rxcur := s.rxcur, matchFn := s.matchFn, hostReads := s.hostReads, pending := rest }

/-- The transport's acts change its own state, each as its input says, and no register of KIRC (42_pulse_codec.md R156,
20_memory.md R74; which acts there are is log 6, 7, 8). -/
def Obligations.TransportActsLeaveKircAlone : Prop :=
  ∀ (s : State) (rest : List Input),
    (∀ burst, s.pending = .capture burst :: rest → step s = .next { s with rxb := burst, rxcur := 0, pending := rest }) ∧
    (∀ more, s.pending = .receive more :: rest → step s = .next { s with rxb := s.rxb ++ more, pending := rest }) ∧
    (s.pending = .rewind :: rest → step s = .next { s with rxcur := 0, pending := rest }) ∧
    (∀ n, s.pending = .take n :: rest → step s = .next { s with txq := s.txq.drop n, pending := rest }) ∧
    (∀ burst, s.pending = .transportReset burst :: rest →
      step s = .next { s with txq := [], rxb := burst, rxcur := 0, pending := rest })

/-- The cursor bounded by the length of `RXB` is kept by every step, of KIRC and of the transport: the spec's own inference
(41_integrity.md R130) from 42_pulse_codec.md R154; the transport's acts are log 6, 8. -/
def Obligations.EveryStepKeepsTheCursorInBounds : Prop :=
  ∀ s t : State, s.CursorInBounds → step s = .next t → t.CursorInBounds

/-- After reset the cursor is in bounds (the reset value of the transport's state is the model's, log 4). -/
def Obligations.ResetCursorIsInBounds : Prop := State.reset.CursorInBounds

/-- A transmit queue that holds only carriers of 38000 Hz and the five pairs is kept so by every step
(10_state.md R31, 42_pulse_codec.md R152, R157). -/
def Obligations.EveryStepKeepsTheQueueLegal : Prop :=
  ∀ s t : State, s.TxqLegal → step s = .next t → t.TxqLegal

/-- After reset the transmit queue is legal (its reset value is the model's, log 4). -/
def Obligations.ResetQueueIsLegal : Prop := State.reset.TxqLegal

/-- `MATCH_FN` is one function for the whole run: no step changes it (42_pulse_codec.md R155; its place in the state is
log 3). -/
def Obligations.EveryStepKeepsTheTolerance : Prop :=
  ∀ s t : State, step s = .next t → t.matchFn = s.matchFn

/-! ### Notation, layout, address map -/

/-- The pseudo-instructions' words decode to their expansions, and the command mnemonics' to their commands
(30_encoding.md R88). -/
def Obligations.PseudoInstructionsExpand : Prop :=
  ((List.finRange 8).flatMap fun c => (AsmLine.command c).words).map decode =
      [.nop, .clear, .csum0, .csum1, .validate, .finalize, .encode, .decode] ∧
  (∀ c : Byte, 8 ≤ c.toNat → (AsmLine.cmdres c).words.map decode = [.cmdReserved c]) ∧
    AsmLine.clrbad.words.map decode = [.wr 0x21#8 0x04#8] ∧
    AsmLine.send.words.map decode = [.finalize, .encode] ∧
    AsmLine.recv.words.map decode = [.decode, .rd 0x21#8] ∧
    ∀ B : ProtocolState, (AsmLine.ldtx B).words.map decode =
      (List.range 16).map fun i => .wr (BitVec.ofNat 8 i) (byteAt B i)

/-- The sixteen transactions of `LDTX`, run by the machine, make `TXBUF` the sixteen bytes and change nothing else
(30_encoding.md R88, 40_host_access.md R102). -/
def Obligations.LdtxLoadsTheWholeBuffer : Prop :=
  ∀ (s : State) (B : ProtocolState) (rest : List Input),
    s.pending = (AsmLine.ldtx B).words.map .bus ++ rest →
    core.run 16 s = .next { s with txbuf := B, pending := rest }

/-- The layout's rows take every bit of the sixteen bytes exactly once (10_state.md R33). -/
def Obligations.LayoutCoversEveryBitOnce : Prop :=
  ∀ n < 16, ∀ b < 8,
    (layout.filter fun f => decide (f.byte = n) && decide (f.lo ≤ b) && decide (b ≤ f.hi)).length = 1

/-- Every register has the host address `KIRC_BASE` plus its offset, and that address names it (20_memory.md R67). That
host addresses are natural numbers which do not wrap, so that no other one names the register, is the model's, log 10. -/
def Obligations.HostAddressNamesItsRegister : Prop :=
  ∀ a : Byte, registerAt (hostAddress a) = some a ∧ ∀ h : Nat, registerAt h = some a → h = hostAddress a
end

