-- ==== Sys2Proof/Laws/Bytes.lean ====
section
/-! SUPPORT. The small lemmas of bytes, nibbles and state buffers. -/

namespace Sys2Proof.Machine

@[simp] theorem byteAt_setByte_same {B : ProtocolState} {n : Nat} {v : Byte} (h : n < 16) :
    byteAt (setByte B n v) n = v := by
  simp [byteAt, setByte, h]

@[simp] theorem byteAt_setByte_ne {B : ProtocolState} {n m : Nat} {v : Byte} (h : m ≠ n) :
    byteAt (setByte B m v) n = byteAt B n := by
  simp [byteAt, setByte, h]

/-- One lemma for both cases of reading after a write. -/
theorem byteAt_setByte (B : ProtocolState) (m n : Nat) (v : Byte) :
    byteAt (setByte B m v) n = if m = n ∧ n < 16 then v else byteAt B n := by
  by_cases h : m = n
  · subst h
    by_cases hm : m < 16
    · simp [hm]
    · simp [byteAt, setByte, hm]
  · simp [h]

@[simp] theorem byteAt_zeroState (n : Nat) : byteAt zeroState n = 0x00#8 := by
  by_cases h : n < 16 <;> simp [byteAt, zeroState, h]

/-- A byte past the end reads 0x00. -/
theorem byteAt_of_ge {B : ProtocolState} {n : Nat} (h : 16 ≤ n) : byteAt B n = 0x00#8 := by
  simp [byteAt, Nat.not_lt.mpr h]

/-- Two states with the same 16 bytes are the same state. -/
theorem protocolState_ext {A B : ProtocolState} (h : ∀ n < 16, byteAt A n = byteAt B n) : A = B := by
  apply Vector.ext
  intro i hi
  have := h i hi
  simpa [byteAt, hi] using this

@[simp] theorem hi4_joinNibbles : ∀ a b : Nibble, hi4 (joinNibbles a b) = a := by decide

@[simp] theorem lo4_joinNibbles : ∀ a b : Nibble, lo4 (joinNibbles a b) = b := by decide

/-- A written bit reads back, and every other bit of the byte stays. -/
theorem getLsbD_setBitTo (v : Byte) (i j : Nat) (b : Bool) (hi : i < 8) :
    (setBitTo v i b).getLsbD j = if i = j then b else v.getLsbD j := by
  by_cases hj : j < 8
  · have mask : (0x01#8 <<< i).getLsbD j = decide (i = j) := by
      interval_cases i <;> interval_cases j <;> rfl
    cases b
    · simp only [setBitTo, Bool.false_eq_true, if_false, BitVec.getLsbD_and, BitVec.getLsbD_not, mask, hj, decide_true]
      by_cases hij : i = j <;> simp [hij]
    · simp only [setBitTo, if_true, BitVec.getLsbD_or, mask]
      by_cases hij : i = j <;> simp [hij]
  · have : i ≠ j := by omega
    rw [BitVec.getLsbD_of_ge _ _ (by omega), BitVec.getLsbD_of_ge v _ (by omega)]
    simp [this]

/-- Writing the eight bits of a byte one after another gives the byte. -/
theorem foldl_setBitTo (f : Nat → Bool) (v : Byte) (j : Nat) (hj : j < 8) :
    ((List.range 8).foldl (fun w i => setBitTo w i (f i)) v).getLsbD j = f j := by
  have e : List.range 8 = [0, 1, 2, 3, 4, 5, 6, 7] := rfl
  rw [e]
  simp only [List.foldl_cons, List.foldl_nil, getLsbD_setBitTo _ _ _ _ (by decide : 0 < 8),
    getLsbD_setBitTo _ _ _ _ (by decide : 1 < 8), getLsbD_setBitTo _ _ _ _ (by decide : 2 < 8),
    getLsbD_setBitTo _ _ _ _ (by decide : 3 < 8), getLsbD_setBitTo _ _ _ _ (by decide : 4 < 8),
    getLsbD_setBitTo _ _ _ _ (by decide : 5 < 8), getLsbD_setBitTo _ _ _ _ (by decide : 6 < 8),
    getLsbD_setBitTo _ _ _ _ (by decide : 7 < 8)]
  interval_cases j <;> simp

end Sys2Proof.Machine
end

