-- ==== Sys2Proof/Laws/State.lean ====
section
/-! SUPPORT. What each named update of the state leaves in each field, by rfl, for simp. -/

namespace Sys2Proof.Machine

/-! BadCmd writes its flag only (60_exceptions.md R201). -/

@[simp] theorem raiseBadCmd_txbuf (s : State) : (raiseBadCmd s).txbuf = s.txbuf := rfl
@[simp] theorem raiseBadCmd_rxbuf (s : State) : (raiseBadCmd s).rxbuf = s.rxbuf := rfl
@[simp] theorem raiseBadCmd_rxshadow (s : State) : (raiseBadCmd s).rxshadow = s.rxshadow := rfl
@[simp] theorem raiseBadCmd_csum (s : State) : (raiseBadCmd s).csum = s.csum := rfl
@[simp] theorem raiseBadCmd_statusValid (s : State) : (raiseBadCmd s).statusValid = s.statusValid := rfl
@[simp] theorem raiseBadCmd_statusMatch (s : State) : (raiseBadCmd s).statusMatch = s.statusMatch := rfl
@[simp] theorem raiseBadCmd_statusBadcmd (s : State) : (raiseBadCmd s).statusBadcmd = true := rfl
@[simp] theorem raiseBadCmd_txq (s : State) : (raiseBadCmd s).txq = s.txq := rfl
@[simp] theorem raiseBadCmd_rxb (s : State) : (raiseBadCmd s).rxb = s.rxb := rfl
@[simp] theorem raiseBadCmd_rxcur (s : State) : (raiseBadCmd s).rxcur = s.rxcur := rfl
@[simp] theorem raiseBadCmd_matchFn (s : State) : (raiseBadCmd s).matchFn = s.matchFn := rfl
@[simp] theorem raiseBadCmd_hostReads (s : State) : (raiseBadCmd s).hostReads = s.hostReads := rfl
@[simp] theorem raiseBadCmd_pending (s : State) : (raiseBadCmd s).pending = s.pending := rfl

/-! A returned value changes no register (20_memory.md R64). -/

@[simp] theorem returnToHost_txbuf (s : State) (v : Byte) : (returnToHost s v).txbuf = s.txbuf := rfl
@[simp] theorem returnToHost_rxbuf (s : State) (v : Byte) : (returnToHost s v).rxbuf = s.rxbuf := rfl
@[simp] theorem returnToHost_rxshadow (s : State) (v : Byte) : (returnToHost s v).rxshadow = s.rxshadow := rfl
@[simp] theorem returnToHost_csum (s : State) (v : Byte) : (returnToHost s v).csum = s.csum := rfl
@[simp] theorem returnToHost_statusValid (s : State) (v : Byte) : (returnToHost s v).statusValid = s.statusValid := rfl
@[simp] theorem returnToHost_statusMatch (s : State) (v : Byte) : (returnToHost s v).statusMatch = s.statusMatch := rfl
@[simp] theorem returnToHost_statusBadcmd (s : State) (v : Byte) : (returnToHost s v).statusBadcmd = s.statusBadcmd := rfl
@[simp] theorem returnToHost_txq (s : State) (v : Byte) : (returnToHost s v).txq = s.txq := rfl
@[simp] theorem returnToHost_rxb (s : State) (v : Byte) : (returnToHost s v).rxb = s.rxb := rfl
@[simp] theorem returnToHost_rxcur (s : State) (v : Byte) : (returnToHost s v).rxcur = s.rxcur := rfl
@[simp] theorem returnToHost_matchFn (s : State) (v : Byte) : (returnToHost s v).matchFn = s.matchFn := rfl
@[simp] theorem returnToHost_hostReads (s : State) (v : Byte) : (returnToHost s v).hostReads = s.hostReads ++ [v] := rfl
@[simp] theorem returnToHost_pending (s : State) (v : Byte) : (returnToHost s v).pending = s.pending := rfl

/-! An appended item changes `TXQ` only (10_state.md R31). -/

@[simp] theorem appendItem_txbuf (s : State) (item : TxItem) : (appendItem s item).txbuf = s.txbuf := rfl
@[simp] theorem appendItem_rxbuf (s : State) (item : TxItem) : (appendItem s item).rxbuf = s.rxbuf := rfl
@[simp] theorem appendItem_rxshadow (s : State) (item : TxItem) : (appendItem s item).rxshadow = s.rxshadow := rfl
@[simp] theorem appendItem_csum (s : State) (item : TxItem) : (appendItem s item).csum = s.csum := rfl
@[simp] theorem appendItem_statusValid (s : State) (item : TxItem) : (appendItem s item).statusValid = s.statusValid := rfl
@[simp] theorem appendItem_statusMatch (s : State) (item : TxItem) : (appendItem s item).statusMatch = s.statusMatch := rfl
@[simp] theorem appendItem_statusBadcmd (s : State) (item : TxItem) : (appendItem s item).statusBadcmd = s.statusBadcmd := rfl
@[simp] theorem appendItem_txq (s : State) (item : TxItem) : (appendItem s item).txq = s.txq ++ [item] := rfl
@[simp] theorem appendItem_rxb (s : State) (item : TxItem) : (appendItem s item).rxb = s.rxb := rfl
@[simp] theorem appendItem_rxcur (s : State) (item : TxItem) : (appendItem s item).rxcur = s.rxcur := rfl
@[simp] theorem appendItem_matchFn (s : State) (item : TxItem) : (appendItem s item).matchFn = s.matchFn := rfl
@[simp] theorem appendItem_hostReads (s : State) (item : TxItem) : (appendItem s item).hostReads = s.hostReads := rfl
@[simp] theorem appendItem_pending (s : State) (item : TxItem) : (appendItem s item).pending = s.pending := rfl

/-! A match writes `RXBUF` and `MATCH` only (42_pulse_codec.md R169). -/

@[simp] theorem commitMatch_txbuf (s : State) : (commitMatch s).txbuf = s.txbuf := rfl
@[simp] theorem commitMatch_rxbuf (s : State) : (commitMatch s).rxbuf = s.rxshadow := rfl
@[simp] theorem commitMatch_rxshadow (s : State) : (commitMatch s).rxshadow = s.rxshadow := rfl
@[simp] theorem commitMatch_csum (s : State) : (commitMatch s).csum = s.csum := rfl
@[simp] theorem commitMatch_statusValid (s : State) : (commitMatch s).statusValid = s.statusValid := rfl
@[simp] theorem commitMatch_statusMatch (s : State) : (commitMatch s).statusMatch = true := rfl
@[simp] theorem commitMatch_statusBadcmd (s : State) : (commitMatch s).statusBadcmd = s.statusBadcmd := rfl
@[simp] theorem commitMatch_txq (s : State) : (commitMatch s).txq = s.txq := rfl
@[simp] theorem commitMatch_rxb (s : State) : (commitMatch s).rxb = s.rxb := rfl
@[simp] theorem commitMatch_rxcur (s : State) : (commitMatch s).rxcur = s.rxcur := rfl
@[simp] theorem commitMatch_matchFn (s : State) : (commitMatch s).matchFn = s.matchFn := rfl
@[simp] theorem commitMatch_hostReads (s : State) : (commitMatch s).hostReads = s.hostReads := rfl
@[simp] theorem commitMatch_pending (s : State) : (commitMatch s).pending = s.pending := rfl

/-! No match writes `MATCH` only (42_pulse_codec.md R170). -/

@[simp] theorem noMatch_txbuf (s : State) : (noMatch s).txbuf = s.txbuf := rfl
@[simp] theorem noMatch_rxbuf (s : State) : (noMatch s).rxbuf = s.rxbuf := rfl
@[simp] theorem noMatch_rxshadow (s : State) : (noMatch s).rxshadow = s.rxshadow := rfl
@[simp] theorem noMatch_csum (s : State) : (noMatch s).csum = s.csum := rfl
@[simp] theorem noMatch_statusValid (s : State) : (noMatch s).statusValid = s.statusValid := rfl
@[simp] theorem noMatch_statusMatch (s : State) : (noMatch s).statusMatch = false := rfl
@[simp] theorem noMatch_statusBadcmd (s : State) : (noMatch s).statusBadcmd = s.statusBadcmd := rfl
@[simp] theorem noMatch_txq (s : State) : (noMatch s).txq = s.txq := rfl
@[simp] theorem noMatch_rxb (s : State) : (noMatch s).rxb = s.rxb := rfl
@[simp] theorem noMatch_rxcur (s : State) : (noMatch s).rxcur = s.rxcur := rfl
@[simp] theorem noMatch_matchFn (s : State) : (noMatch s).matchFn = s.matchFn := rfl
@[simp] theorem noMatch_hostReads (s : State) : (noMatch s).hostReads = s.hostReads := rfl
@[simp] theorem noMatch_pending (s : State) : (noMatch s).pending = s.pending := rfl

/-! A capture changes the receive buffer and the cursor only (42_pulse_codec.md R156). -/

@[simp] theorem captureBurst_txbuf (s : State) (burst : List PulsePair) : (captureBurst s burst).txbuf = s.txbuf := rfl
@[simp] theorem captureBurst_rxbuf (s : State) (burst : List PulsePair) : (captureBurst s burst).rxbuf = s.rxbuf := rfl
@[simp] theorem captureBurst_rxshadow (s : State) (burst : List PulsePair) : (captureBurst s burst).rxshadow = s.rxshadow := rfl
@[simp] theorem captureBurst_csum (s : State) (burst : List PulsePair) : (captureBurst s burst).csum = s.csum := rfl
@[simp] theorem captureBurst_statusValid (s : State) (burst : List PulsePair) : (captureBurst s burst).statusValid = s.statusValid := rfl
@[simp] theorem captureBurst_statusMatch (s : State) (burst : List PulsePair) : (captureBurst s burst).statusMatch = s.statusMatch := rfl
@[simp] theorem captureBurst_statusBadcmd (s : State) (burst : List PulsePair) : (captureBurst s burst).statusBadcmd = s.statusBadcmd := rfl
@[simp] theorem captureBurst_txq (s : State) (burst : List PulsePair) : (captureBurst s burst).txq = s.txq := rfl
@[simp] theorem captureBurst_rxb (s : State) (burst : List PulsePair) : (captureBurst s burst).rxb = burst := rfl
@[simp] theorem captureBurst_rxcur (s : State) (burst : List PulsePair) : (captureBurst s burst).rxcur = 0 := rfl
@[simp] theorem captureBurst_matchFn (s : State) (burst : List PulsePair) : (captureBurst s burst).matchFn = s.matchFn := rfl
@[simp] theorem captureBurst_hostReads (s : State) (burst : List PulsePair) : (captureBurst s burst).hostReads = s.hostReads := rfl
@[simp] theorem captureBurst_pending (s : State) (burst : List PulsePair) : (captureBurst s burst).pending = s.pending := rfl

/-! Filling changes the receive buffer only. -/

@[simp] theorem receiveMore_txbuf (s : State) (more : List PulsePair) : (receiveMore s more).txbuf = s.txbuf := rfl
@[simp] theorem receiveMore_rxbuf (s : State) (more : List PulsePair) : (receiveMore s more).rxbuf = s.rxbuf := rfl
@[simp] theorem receiveMore_rxshadow (s : State) (more : List PulsePair) : (receiveMore s more).rxshadow = s.rxshadow := rfl
@[simp] theorem receiveMore_csum (s : State) (more : List PulsePair) : (receiveMore s more).csum = s.csum := rfl
@[simp] theorem receiveMore_statusValid (s : State) (more : List PulsePair) : (receiveMore s more).statusValid = s.statusValid := rfl
@[simp] theorem receiveMore_statusMatch (s : State) (more : List PulsePair) : (receiveMore s more).statusMatch = s.statusMatch := rfl
@[simp] theorem receiveMore_statusBadcmd (s : State) (more : List PulsePair) : (receiveMore s more).statusBadcmd = s.statusBadcmd := rfl
@[simp] theorem receiveMore_txq (s : State) (more : List PulsePair) : (receiveMore s more).txq = s.txq := rfl
@[simp] theorem receiveMore_rxb (s : State) (more : List PulsePair) : (receiveMore s more).rxb = s.rxb ++ more := rfl
@[simp] theorem receiveMore_rxcur (s : State) (more : List PulsePair) : (receiveMore s more).rxcur = s.rxcur := rfl
@[simp] theorem receiveMore_matchFn (s : State) (more : List PulsePair) : (receiveMore s more).matchFn = s.matchFn := rfl
@[simp] theorem receiveMore_hostReads (s : State) (more : List PulsePair) : (receiveMore s more).hostReads = s.hostReads := rfl
@[simp] theorem receiveMore_pending (s : State) (more : List PulsePair) : (receiveMore s more).pending = s.pending := rfl

/-! A rewind changes the cursor only. -/

@[simp] theorem rewindCursor_txbuf (s : State) : (rewindCursor s).txbuf = s.txbuf := rfl
@[simp] theorem rewindCursor_rxbuf (s : State) : (rewindCursor s).rxbuf = s.rxbuf := rfl
@[simp] theorem rewindCursor_rxshadow (s : State) : (rewindCursor s).rxshadow = s.rxshadow := rfl
@[simp] theorem rewindCursor_csum (s : State) : (rewindCursor s).csum = s.csum := rfl
@[simp] theorem rewindCursor_statusValid (s : State) : (rewindCursor s).statusValid = s.statusValid := rfl
@[simp] theorem rewindCursor_statusMatch (s : State) : (rewindCursor s).statusMatch = s.statusMatch := rfl
@[simp] theorem rewindCursor_statusBadcmd (s : State) : (rewindCursor s).statusBadcmd = s.statusBadcmd := rfl
@[simp] theorem rewindCursor_txq (s : State) : (rewindCursor s).txq = s.txq := rfl
@[simp] theorem rewindCursor_rxb (s : State) : (rewindCursor s).rxb = s.rxb := rfl
@[simp] theorem rewindCursor_rxcur (s : State) : (rewindCursor s).rxcur = 0 := rfl
@[simp] theorem rewindCursor_matchFn (s : State) : (rewindCursor s).matchFn = s.matchFn := rfl
@[simp] theorem rewindCursor_hostReads (s : State) : (rewindCursor s).hostReads = s.hostReads := rfl
@[simp] theorem rewindCursor_pending (s : State) : (rewindCursor s).pending = s.pending := rfl

/-! Taking items changes `TXQ` only. -/

@[simp] theorem takeItems_txbuf (s : State) (n : Nat) : (takeItems s n).txbuf = s.txbuf := rfl
@[simp] theorem takeItems_rxbuf (s : State) (n : Nat) : (takeItems s n).rxbuf = s.rxbuf := rfl
@[simp] theorem takeItems_rxshadow (s : State) (n : Nat) : (takeItems s n).rxshadow = s.rxshadow := rfl
@[simp] theorem takeItems_csum (s : State) (n : Nat) : (takeItems s n).csum = s.csum := rfl
@[simp] theorem takeItems_statusValid (s : State) (n : Nat) : (takeItems s n).statusValid = s.statusValid := rfl
@[simp] theorem takeItems_statusMatch (s : State) (n : Nat) : (takeItems s n).statusMatch = s.statusMatch := rfl
@[simp] theorem takeItems_statusBadcmd (s : State) (n : Nat) : (takeItems s n).statusBadcmd = s.statusBadcmd := rfl
@[simp] theorem takeItems_txq (s : State) (n : Nat) : (takeItems s n).txq = s.txq.drop n := rfl
@[simp] theorem takeItems_rxb (s : State) (n : Nat) : (takeItems s n).rxb = s.rxb := rfl
@[simp] theorem takeItems_rxcur (s : State) (n : Nat) : (takeItems s n).rxcur = s.rxcur := rfl
@[simp] theorem takeItems_matchFn (s : State) (n : Nat) : (takeItems s n).matchFn = s.matchFn := rfl
@[simp] theorem takeItems_hostReads (s : State) (n : Nat) : (takeItems s n).hostReads = s.hostReads := rfl
@[simp] theorem takeItems_pending (s : State) (n : Nat) : (takeItems s n).pending = s.pending := rfl

/-! A reset writes the registers of KIRC only (70_reset_and_hazards.md R231). -/

@[simp] theorem resetKirc_txbuf (s : State) : (resetKirc s).txbuf = State.reset.txbuf := rfl
@[simp] theorem resetKirc_rxbuf (s : State) : (resetKirc s).rxbuf = State.reset.rxbuf := rfl
@[simp] theorem resetKirc_rxshadow (s : State) : (resetKirc s).rxshadow = State.reset.rxshadow := rfl
@[simp] theorem resetKirc_csum (s : State) : (resetKirc s).csum = State.reset.csum := rfl
@[simp] theorem resetKirc_statusValid (s : State) : (resetKirc s).statusValid = State.reset.statusValid := rfl
@[simp] theorem resetKirc_statusMatch (s : State) : (resetKirc s).statusMatch = State.reset.statusMatch := rfl
@[simp] theorem resetKirc_statusBadcmd (s : State) : (resetKirc s).statusBadcmd = State.reset.statusBadcmd := rfl
@[simp] theorem resetKirc_txq (s : State) : (resetKirc s).txq = s.txq := rfl
@[simp] theorem resetKirc_rxb (s : State) : (resetKirc s).rxb = s.rxb := rfl
@[simp] theorem resetKirc_rxcur (s : State) : (resetKirc s).rxcur = s.rxcur := rfl
@[simp] theorem resetKirc_matchFn (s : State) : (resetKirc s).matchFn = s.matchFn := rfl
@[simp] theorem resetKirc_hostReads (s : State) : (resetKirc s).hostReads = s.hostReads := rfl
@[simp] theorem resetKirc_pending (s : State) : (resetKirc s).pending = s.pending := rfl

/-! A reset of the transport writes its own state only. -/

@[simp] theorem resetTransport_txbuf (s : State) (burst : List PulsePair) : (resetTransport s burst).txbuf = s.txbuf := rfl
@[simp] theorem resetTransport_rxbuf (s : State) (burst : List PulsePair) : (resetTransport s burst).rxbuf = s.rxbuf := rfl
@[simp] theorem resetTransport_rxshadow (s : State) (burst : List PulsePair) : (resetTransport s burst).rxshadow = s.rxshadow := rfl
@[simp] theorem resetTransport_csum (s : State) (burst : List PulsePair) : (resetTransport s burst).csum = s.csum := rfl
@[simp] theorem resetTransport_statusValid (s : State) (burst : List PulsePair) : (resetTransport s burst).statusValid = s.statusValid := rfl
@[simp] theorem resetTransport_statusMatch (s : State) (burst : List PulsePair) : (resetTransport s burst).statusMatch = s.statusMatch := rfl
@[simp] theorem resetTransport_statusBadcmd (s : State) (burst : List PulsePair) : (resetTransport s burst).statusBadcmd = s.statusBadcmd := rfl
@[simp] theorem resetTransport_txq (s : State) (burst : List PulsePair) : (resetTransport s burst).txq = [] := rfl
@[simp] theorem resetTransport_rxb (s : State) (burst : List PulsePair) : (resetTransport s burst).rxb = burst := rfl
@[simp] theorem resetTransport_rxcur (s : State) (burst : List PulsePair) : (resetTransport s burst).rxcur = 0 := rfl
@[simp] theorem resetTransport_matchFn (s : State) (burst : List PulsePair) : (resetTransport s burst).matchFn = s.matchFn := rfl
@[simp] theorem resetTransport_hostReads (s : State) (burst : List PulsePair) : (resetTransport s burst).hostReads = s.hostReads := rfl
@[simp] theorem resetTransport_pending (s : State) (burst : List PulsePair) : (resetTransport s burst).pending = s.pending := rfl

/-! The fields of a written register (40_host_access.md R102): only `TXBUF` and `BADCMD` can change. -/

@[simp] theorem ackBadCmd_txbuf (s : State) (d : Byte) : (ackBadCmd s d).txbuf = s.txbuf := by
  unfold ackBadCmd; split <;> rfl
@[simp] theorem ackBadCmd_rxbuf (s : State) (d : Byte) : (ackBadCmd s d).rxbuf = s.rxbuf := by
  unfold ackBadCmd; split <;> rfl
@[simp] theorem ackBadCmd_rxshadow (s : State) (d : Byte) : (ackBadCmd s d).rxshadow = s.rxshadow := by
  unfold ackBadCmd; split <;> rfl
@[simp] theorem ackBadCmd_csum (s : State) (d : Byte) : (ackBadCmd s d).csum = s.csum := by
  unfold ackBadCmd; split <;> rfl
@[simp] theorem ackBadCmd_statusValid (s : State) (d : Byte) : (ackBadCmd s d).statusValid = s.statusValid := by
  unfold ackBadCmd; split <;> rfl
@[simp] theorem ackBadCmd_statusMatch (s : State) (d : Byte) : (ackBadCmd s d).statusMatch = s.statusMatch := by
  unfold ackBadCmd; split <;> rfl
@[simp] theorem ackBadCmd_txq (s : State) (d : Byte) : (ackBadCmd s d).txq = s.txq := by
  unfold ackBadCmd; split <;> rfl
@[simp] theorem ackBadCmd_rxb (s : State) (d : Byte) : (ackBadCmd s d).rxb = s.rxb := by
  unfold ackBadCmd; split <;> rfl
@[simp] theorem ackBadCmd_rxcur (s : State) (d : Byte) : (ackBadCmd s d).rxcur = s.rxcur := by
  unfold ackBadCmd; split <;> rfl
@[simp] theorem ackBadCmd_matchFn (s : State) (d : Byte) : (ackBadCmd s d).matchFn = s.matchFn := by
  unfold ackBadCmd; split <;> rfl
@[simp] theorem ackBadCmd_hostReads (s : State) (d : Byte) : (ackBadCmd s d).hostReads = s.hostReads := by
  unfold ackBadCmd; split <;> rfl
@[simp] theorem ackBadCmd_pending (s : State) (d : Byte) : (ackBadCmd s d).pending = s.pending := by
  unfold ackBadCmd; split <;> rfl
@[simp] theorem ackBadCmd_statusBadcmd (s : State) (d : Byte) :
    (ackBadCmd s d).statusBadcmd = (s.statusBadcmd && !d.getLsbD 2) := by
  unfold ackBadCmd; split <;> simp_all
@[simp] theorem writeReg_rxbuf (s : State) (a d : Byte) : (writeReg s a d).rxbuf = s.rxbuf := by
  unfold writeReg; split
  · rfl
  · split <;> simp
@[simp] theorem writeReg_rxshadow (s : State) (a d : Byte) : (writeReg s a d).rxshadow = s.rxshadow := by
  unfold writeReg; split
  · rfl
  · split <;> simp
@[simp] theorem writeReg_csum (s : State) (a d : Byte) : (writeReg s a d).csum = s.csum := by
  unfold writeReg; split
  · rfl
  · split <;> simp
@[simp] theorem writeReg_statusValid (s : State) (a d : Byte) : (writeReg s a d).statusValid = s.statusValid := by
  unfold writeReg; split
  · rfl
  · split <;> simp
@[simp] theorem writeReg_statusMatch (s : State) (a d : Byte) : (writeReg s a d).statusMatch = s.statusMatch := by
  unfold writeReg; split
  · rfl
  · split <;> simp
@[simp] theorem writeReg_txq (s : State) (a d : Byte) : (writeReg s a d).txq = s.txq := by
  unfold writeReg; split
  · rfl
  · split <;> simp
@[simp] theorem writeReg_rxb (s : State) (a d : Byte) : (writeReg s a d).rxb = s.rxb := by
  unfold writeReg; split
  · rfl
  · split <;> simp
@[simp] theorem writeReg_rxcur (s : State) (a d : Byte) : (writeReg s a d).rxcur = s.rxcur := by
  unfold writeReg; split
  · rfl
  · split <;> simp
@[simp] theorem writeReg_matchFn (s : State) (a d : Byte) : (writeReg s a d).matchFn = s.matchFn := by
  unfold writeReg; split
  · rfl
  · split <;> simp
@[simp] theorem writeReg_hostReads (s : State) (a d : Byte) : (writeReg s a d).hostReads = s.hostReads := by
  unfold writeReg; split
  · rfl
  · split <;> simp
@[simp] theorem writeReg_pending (s : State) (a d : Byte) : (writeReg s a d).pending = s.pending := by
  unfold writeReg; split
  · rfl
  · split <;> simp

end Sys2Proof.Machine
end

