-- ==== Sys2Proof/Laws/Transport.lean ====
section
/-! SUPPORT. What each call to the transport can do, said once. -/

namespace Sys2Proof.Machine

/-- Emitting a list appends its pairs, in order, and does nothing else (42_pulse_codec.md R151). -/
theorem emitAll_eq (s : State) (ps : List PulsePair) : emitAll s ps = { s with txq := s.txq ++ ps.map .pair } := by
  induction ps generalizing s with
  | nil => simp [emitAll]
  | cons p rest ih =>
    have : emitAll s (p :: rest) = emitAll (emit s p) rest := rfl
    rw [this, ih]
    simp [emit, appendItem]

/-- `ENCODE` appends the carrier and the 140 pairs, and does nothing else (42_pulse_codec.md R164). -/
theorem execEncode_eq (s : State) :
    execEncode s = .next { s with txq := s.txq ++ (.carrier carrierHz :: (burstPairs s.txbuf).map .pair) } := by
  simp [execEncode, emitMessage, emitAll_eq, setCarrier, appendItem, burstPairs]

/-- The pair the next `Expect` compares is the first of those ahead (42_pulse_codec.md R154). -/
theorem ahead_head (s : State) : s.rxb[s.rxcur]? = s.ahead.head? := by
  simp [State.ahead, List.head?_drop]

/-- All that `Expect` can do (42_pulse_codec.md R154). -/
theorem expect_cases (e : PulsePair) (s : State) :
    (∃ o, s.rxb[s.rxcur]? = some o ∧ s.matchFn.accepts e o = true ∧
        expect e s = (true, { s with rxcur := s.rxcur + 1 })) ∨
      ((∀ o, s.rxb[s.rxcur]? = some o → s.matchFn.accepts e o = false) ∧ expect e s = (false, s)) := by
  unfold expect
  cases h : s.rxb[s.rxcur]? with
  | none => exact .inr ⟨by simp, rfl⟩
  | some o =>
    by_cases ha : s.matchFn.accepts e o = true
    · exact .inl ⟨o, rfl, ha, by simp [ha]⟩
    · exact .inr ⟨by simpa using ha, by simp [ha]⟩

end Sys2Proof.Machine
end

