-- ==== Sys2Proof/Laws/Decoder.lean ====
section
/-! SUPPORT. What each pass of the decoder can do, said once: how many pairs it consumes, when it succeeds, what it
leaves in `RXSHADOW`. -/

namespace Sys2Proof.Machine

/-- Consumption never passes the targets. -/
theorem consumedPairs_le (m : MatchFn) (T : List (List PulsePair)) (l : List PulsePair) :
    consumedPairs m T l ≤ T.length := by
  induction T generalizing l with
  | nil => simp [consumedPairs]
  | cons ts T ih =>
    cases l with
    | nil => simp [consumedPairs]
    | cons o l =>
      simp only [consumedPairs]
      split
      · simpa using ih l
      · simp

/-- Consumption never passes the pairs there are. -/
theorem consumedPairs_le_right (m : MatchFn) (T : List (List PulsePair)) (l : List PulsePair) :
    consumedPairs m T l ≤ l.length := by
  induction T generalizing l with
  | nil => simp [consumedPairs]
  | cons ts T ih =>
    cases l with
    | nil => simp [consumedPairs]
    | cons o l =>
      simp only [consumedPairs]
      split
      · simpa using ih l
      · simp

/-- The pair consuming stops at is accepted by no target of its place (42_pulse_codec.md R170). -/
theorem consumedPairs_rejects (m : MatchFn) (T : List (List PulsePair)) (l : List PulsePair)
    (h : consumedPairs m T l ≠ T.length) (o : PulsePair) (ho : l[consumedPairs m T l]? = some o) :
    ∃ targets, T[consumedPairs m T l]? = some targets ∧ ∀ e ∈ targets, m.accepts e o = false := by
  induction T generalizing l with
  | nil => simp [consumedPairs] at h
  | cons ts T ih =>
    cases l with
    | nil => simp [consumedPairs] at ho
    | cons o' l =>
      simp only [consumedPairs] at h ho ⊢
      by_cases hh : ts.any (fun e => m.accepts e o') = true
      · simp only [hh, if_true, List.length_cons, ne_eq, Nat.add_right_cancel_iff] at h ho ⊢
        obtain ⟨x, hx, hy⟩ := ih l h (by simpa using ho)
        exact ⟨x, by simpa using hx, hy⟩
      · simp only [hh] at ho ⊢
        simp at ho; subst ho
        exact ⟨ts, by simp, by simpa using hh⟩

/-- The second part of the targets is tried only when the first is consumed whole. -/
theorem consumedPairs_append (m : MatchFn) (T U : List (List PulsePair)) (l : List PulsePair) :
    consumedPairs m (T ++ U) l =
      if consumedPairs m T l = T.length then T.length + consumedPairs m U (l.drop T.length)
      else consumedPairs m T l := by
  induction T generalizing l with
  | nil => simp [consumedPairs]
  | cons ts T ih =>
    cases l with
    | nil => cases U <;> simp [consumedPairs]
    | cons o l =>
      simp only [List.cons_append, consumedPairs]
      split
      · rw [ih l]
        by_cases h : consumedPairs m T l = T.length
        · simp [h]
          omega
        · simp [h]
      · simp

/-- What a pass `f` does, for a list `T` of targets: on success it consumes exactly `T.length` pairs and maps
`RXSHADOW` by `upd`; on failure it consumes the pairs before the first that no target accepts. Nothing else of the
state changes, but for `RXSHADOW` on failure. -/
structure PassSpec (f : State → Bool × State) (T : List (List PulsePair))
    (upd : MatchFn → List PulsePair → ProtocolState → ProtocolState) : Prop where
  success : ∀ s, consumedPairs s.matchFn T s.ahead = T.length →
    f s = (true, { s with rxcur := s.rxcur + T.length, rxshadow := upd s.matchFn s.ahead s.rxshadow })
  failure : ∀ s, consumedPairs s.matchFn T s.ahead ≠ T.length →
    ∃ sh, f s = (false, { s with rxcur := s.rxcur + consumedPairs s.matchFn T s.ahead, rxshadow := sh })

/-- An `Expect` is a pass with one target that keeps `RXSHADOW` (42_pulse_codec.md R154). -/
theorem passSpec_expect (e : PulsePair) : PassSpec (expect e) [[e]] (fun _ _ B => B) := by
  constructor
  · intro s h
    rcases expect_cases e s with ⟨o, ho, ha, he⟩ | ⟨hn, he⟩
    · simpa using he
    · exfalso
      rw [ahead_head] at hn
      cases hl : s.ahead with
      | nil => simp [hl, consumedPairs] at h
      | cons o l => simp [hl, consumedPairs] at h hn; simp [hn] at h
  · intro s h
    rcases expect_cases e s with ⟨o, ho, ha, he⟩ | ⟨hn, he⟩
    · exfalso
      rw [ahead_head] at ho
      cases hl : s.ahead with
      | nil => simp [hl] at ho
      | cons o' l =>
        simp [hl] at ho
        subst ho
        simp [hl, consumedPairs, ha] at h
    · refine ⟨s.rxshadow, ?_⟩
      rw [ahead_head] at hn
      have : consumedPairs s.matchFn [[e]] s.ahead = 0 := by
        cases hl : s.ahead with
        | nil => simp [consumedPairs]
        | cons o l => simp [hl] at hn; simp [consumedPairs, hn]
      simpa [this] using he

/-- The pairs ahead after `n` more have been consumed. -/
theorem ahead_advance (s : State) (n : Nat) (sh : ProtocolState) :
    State.ahead { s with rxcur := s.rxcur + n, rxshadow := sh } = s.ahead.drop n := by
  simp [State.ahead, List.drop_drop]

/-- No pass at all. -/
theorem passSpec_nil : PassSpec (runPasses []) [] (fun _ _ B => B) := by
  constructor
  · intro s _; simp [runPasses]
  · intro s h; simp [consumedPairs] at h

/-- A pass before the others: its targets come first, and the others see the pairs after them. -/
theorem passSpec_cons {f : State → Bool × State} {fs : List (State → Bool × State)} {T U : List (List PulsePair)}
    {u v : MatchFn → List PulsePair → ProtocolState → ProtocolState}
    (hf : PassSpec f T u) (hfs : PassSpec (runPasses fs) U v) :
    PassSpec (runPasses (f :: fs)) (T ++ U) (fun m l B => v m (l.drop T.length) (u m l B)) := by
  constructor
  · intro s h
    rw [consumedPairs_append] at h
    by_cases hT : consumedPairs s.matchFn T s.ahead = T.length
    · rw [if_pos hT] at h
      have hU : consumedPairs s.matchFn U (s.ahead.drop T.length) = U.length := by simp at h; omega
      have h1 := hf.success s hT
      have h2 := hfs.success { s with rxcur := s.rxcur + T.length, rxshadow := u s.matchFn s.ahead s.rxshadow }
        (by rw [ahead_advance]; exact hU)
      rw [ahead_advance] at h2
      simp only [runPasses, h1, h2, List.length_append, Nat.add_assoc]
    · rw [if_neg hT] at h
      have := consumedPairs_le s.matchFn T s.ahead
      simp at h
      omega
  · intro s h
    rw [consumedPairs_append] at h ⊢
    by_cases hT : consumedPairs s.matchFn T s.ahead = T.length
    · rw [if_pos hT] at h ⊢
      have hU : consumedPairs s.matchFn U (s.ahead.drop T.length) ≠ U.length := by simp at h; omega
      have h1 := hf.success s hT
      obtain ⟨sh, h2⟩ := hfs.failure { s with rxcur := s.rxcur + T.length, rxshadow := u s.matchFn s.ahead s.rxshadow }
        (by rw [ahead_advance]; exact hU)
      rw [ahead_advance] at h2
      exact ⟨sh, by simp only [runPasses, h1, h2, Nat.add_assoc]⟩
    · rw [if_neg hT] at h ⊢
      obtain ⟨sh, h1⟩ := hf.failure s hT
      exact ⟨sh, by simp only [runPasses, h1]⟩

/-- The targets of a data bit (42_pulse_codec.md R166). -/
def bitTargets : List PulsePair := [onePair, zeroPair]

/-- The bit the first pair of a list is read as. -/
def headBit (m : MatchFn) (l : List PulsePair) : Bool :=
  match l with
  | o :: _ => m.accepts onePair o
  | [] => false

/-- All that `DecodeBit` can do (42_pulse_codec.md R166). -/
theorem decodeBit_spec (s : State) :
    decodeBit s =
      if consumedPairs s.matchFn [bitTargets] s.ahead = 1 then
        (some (headBit s.matchFn s.ahead), { s with rxcur := s.rxcur + 1 })
      else (none, s) := by
  have hh := ahead_head s
  unfold decodeBit
  cases hl : s.ahead with
  | nil =>
    simp [hl] at hh
    simp [expect, hh, consumedPairs]
  | cons o l =>
    simp [hl] at hh
    by_cases h1 : s.matchFn.accepts onePair o = true
    · simp [expect, hh, h1, consumedPairs, bitTargets, headBit]
    · by_cases h0 : s.matchFn.accepts zeroPair o = true
      · simp [expect, hh, h1, h0, consumedPairs, bitTargets, headBit]
      · simp [expect, hh, h1, h0, consumedPairs, bitTargets]

/-- The byte that the pairs of a list make of `v`, bit by bit in the order of the bit numbers. -/
def readBits (m : MatchFn) : List Nat → List PulsePair → Byte → Byte
  | [], _, v => v
  | i :: is, l, v => readBits m is l.tail (setBitTo v i (headBit m l))

/-- All that the loop of `DecodeByte` can do (42_pulse_codec.md R167). -/
theorem decodeBits_spec (is : List Nat) (v : Byte) (s : State) :
    decodeBits is v s =
      if consumedPairs s.matchFn (List.replicate is.length bitTargets) s.ahead = is.length then
        (some (readBits s.matchFn is s.ahead v), { s with rxcur := s.rxcur + is.length })
      else (none, { s with rxcur := s.rxcur + consumedPairs s.matchFn (List.replicate is.length bitTargets) s.ahead }) := by
  induction is generalizing v s with
  | nil => simp [decodeBits, consumedPairs, readBits]
  | cons i is ih =>
    have split : List.replicate (i :: is).length bitTargets = [bitTargets] ++ List.replicate is.length bitTargets := rfl
    rw [split, consumedPairs_append]
    unfold decodeBits
    rw [decodeBit_spec]
    by_cases h : consumedPairs s.matchFn [bitTargets] s.ahead = 1
    · simp only [h, if_true, List.length_singleton]
      rw [ih]
      have hd : State.ahead { s with rxcur := s.rxcur + 1 } = s.ahead.drop 1 := by simp [State.ahead, List.drop_drop]
      rw [hd]
      simp only [List.length_cons, readBits, List.drop_one, Nat.add_comm is.length 1, Nat.add_left_cancel_iff,
        Nat.add_assoc]
    · have h0 : consumedPairs s.matchFn [bitTargets] s.ahead = 0 := by
        have := consumedPairs_le s.matchFn [bitTargets] s.ahead
        simp at this
        omega
      simp [h0]

/-- `DecodeByte(n)` is a pass over eight bits that writes byte `n` (42_pulse_codec.md R167). -/
theorem passSpec_decodeByte (n : Nat) :
    PassSpec (decodeByte n) (List.replicate 8 bitTargets)
      (fun m l B => setByte B n (readBits m (List.range 8) l 0x00#8)) := by
  have len : (List.range 8).length = 8 := rfl
  constructor
  · intro s h
    simp only [List.length_replicate] at h
    have := decodeBits_spec (List.range 8) 0x00#8 s
    rw [len, if_pos h] at this
    simp only [decodeByte, this, List.length_replicate]
  · intro s h
    simp only [List.length_replicate] at h
    have := decodeBits_spec (List.range 8) 0x00#8 s
    rw [len, if_neg h] at this
    exact ⟨s.rxshadow, by simp only [decodeByte, this]⟩

/-- The byte read from the eight pairs that begin at place `start`. -/
def byteFrom (m : MatchFn) (l : List PulsePair) (start : Nat) : Byte := readBits m (List.range 8) (l.drop start) 0x00#8

/-- Each bit of a byte is read from its own pair, least significant first (42_pulse_codec.md R167). -/
theorem getLsbD_byteFrom (m : MatchFn) (l : List PulsePair) (start b : Nat) (hb : b < 8) :
    (byteFrom m l start).getLsbD b = headBit m (l.drop (start + b)) := by
  have e : byteFrom m l start =
      (List.range 8).foldl (fun v i => setBitTo v i (headBit m (l.drop (start + i)))) 0x00#8 := by
    have e8 : List.range 8 = [0, 1, 2, 3, 4, 5, 6, 7] := rfl
    simp only [byteFrom, e8, readBits, List.foldl_cons, List.foldl_nil, List.tail_drop, Nat.add_zero, Nat.add_assoc,
      Nat.reduceAdd]
  rw [e, foldl_setBitTo _ _ _ hb]

/-- `DecodeMessage(k)` is a pass over the message's targets; its eight bytes are read from their places
(42_pulse_codec.md R168). -/
theorem passSpec_decodeMessage (k : Nat) :
    PassSpec (decodeMessage k) (messageTargets k) (fun m l B =>
      setByte (setByte (setByte (setByte (setByte (setByte (setByte (setByte B
        (8 * k) (byteFrom m l 1)) (8 * k + 1) (byteFrom m l 9)) (8 * k + 2) (byteFrom m l 17))
        (8 * k + 3) (byteFrom m l 25)) (8 * k + 4) (byteFrom m l 37)) (8 * k + 5) (byteFrom m l 45))
        (8 * k + 6) (byteFrom m l 53)) (8 * k + 7) (byteFrom m l 61)) := by
  have h := passSpec_cons (passSpec_expect headerPair) <| passSpec_cons (passSpec_decodeByte (8 * k)) <|
    passSpec_cons (passSpec_decodeByte (8 * k + 1)) <| passSpec_cons (passSpec_decodeByte (8 * k + 2)) <|
    passSpec_cons (passSpec_decodeByte (8 * k + 3)) <| passSpec_cons (passSpec_expect zeroPair) <|
    passSpec_cons (passSpec_expect onePair) <| passSpec_cons (passSpec_expect zeroPair) <|
    passSpec_cons (passSpec_expect gapPair) <| passSpec_cons (passSpec_decodeByte (8 * k + 4)) <|
    passSpec_cons (passSpec_decodeByte (8 * k + 5)) <| passSpec_cons (passSpec_decodeByte (8 * k + 6)) <|
    passSpec_cons (passSpec_decodeByte (8 * k + 7)) <| passSpec_cons (passSpec_expect (terminatingPair k)) passSpec_nil
  have passes : decodeMessage k = runPasses [expect headerPair, decodeByte (8 * k), decodeByte (8 * k + 1),
      decodeByte (8 * k + 2), decodeByte (8 * k + 3), expect zeroPair, expect onePair, expect zeroPair, expect gapPair,
      decodeByte (8 * k + 4), decodeByte (8 * k + 5), decodeByte (8 * k + 6), decodeByte (8 * k + 7),
      expect (terminatingPair k)] := rfl
  rw [passes]
  convert h using 1
  · rfl
  · funext m l B
    simp only [byteFrom, List.drop_drop, List.length_replicate, List.length_singleton]

/-- Both messages of `DECODE`, from an empty `RXSHADOW` (42_pulse_codec.md R169). -/
theorem decodeBurst_spec (s : State) :
    (consumedPairs s.matchFn burstTargets s.ahead = 140 →
      decodeBurst s = (true, { s with
        rxcur := s.rxcur + 140
        rxshadow := (List.range 16).foldl (fun B n => setByte B n (byteFrom s.matchFn s.ahead (dataIndex n 0))) zeroState })) ∧
    (consumedPairs s.matchFn burstTargets s.ahead ≠ 140 →
      ∃ sh, decodeBurst s = (false, { s with
        rxcur := s.rxcur + consumedPairs s.matchFn burstTargets s.ahead, rxshadow := sh })) := by
  have h := passSpec_cons (passSpec_decodeMessage 0) (passSpec_cons (passSpec_decodeMessage 1) passSpec_nil)
  have targets : messageTargets 0 ++ (messageTargets 1 ++ []) = burstTargets := by simp [burstTargets]
  have len : burstTargets.length = 140 := rfl
  rw [targets] at h
  have ahead : State.ahead { s with rxshadow := zeroState } = s.ahead := rfl
  constructor
  · intro hc
    have := h.success { s with rxshadow := zeroState } (by rw [ahead, len]; exact hc)
    rw [ahead] at this
    unfold decodeBurst
    rw [this]
    have l0 : (messageTargets 0).length = 70 := rfl
    simp only [byteFrom, List.drop_drop, len, l0]
    rfl
  · intro hc
    obtain ⟨sh, hs⟩ := h.failure { s with rxshadow := zeroState } (by rw [ahead, len]; exact hc)
    rw [ahead] at hs
    exact ⟨sh, by unfold decodeBurst; rw [hs]⟩

end Sys2Proof.Machine
end

