-- ==== Sys2Proof/Laws/Encoding.lean ====
section
/-! SUPPORT. The fields of a bus word (30_encoding.md R80). -/

namespace Sys2Proof

/-- The bits of a packed word: `DATA` below, `ADDR` above it, `WE` on top (30_encoding.md R80). -/
theorem getLsbD_packWord (we : Bool) (a d : Byte) (i : Nat) :
    (packWord we a d).getLsbD i =
      if i < 8 then d.getLsbD i else if i < 16 then a.getLsbD (i - 8) else (decide (i = 16) && we) := by
  have outer : (packWord we a d).getLsbD i = if i < 8 then d.getLsbD i else (BitVec.ofBool we ++ a).getLsbD (i - 8) :=
    BitVec.getLsbD_append
  have inner : (BitVec.ofBool we ++ a).getLsbD (i - 8) =
      if i - 8 < 8 then a.getLsbD (i - 8) else (BitVec.ofBool we).getLsbD (i - 8 - 8) := BitVec.getLsbD_append
  rw [outer, inner]
  by_cases h8 : i < 8
  · simp [h8]
  · by_cases h16 : i < 16
    · have : i - 8 < 8 := by omega
      simp [h8, h16, this]
    · have h : ¬ (i - 8 < 8) := by omega
      by_cases e : i = 16
      · subst e; simp
      · have : i - 8 - 8 ≠ 0 := by omega
        simp [h8, h16, h, e, this]

@[simp] theorem weOf_packWord (we : Bool) (a d : Byte) : weOf (packWord we a d) = we := by
  simp only [weOf, getLsbD_packWord]
  simp

@[simp] theorem addrOf_packWord (we : Bool) (a d : Byte) : addrOf (packWord we a d) = a := by
  apply BitVec.eq_of_getLsbD_eq
  intro i hi
  have h : ¬ (8 + i < 8) := by omega
  have h' : 8 + i < 16 := by omega
  simp only [addrOf, BitVec.getLsbD_extractLsb', getLsbD_packWord, h, h', if_true, if_false, hi, decide_true,
    Bool.true_and, Nat.add_sub_cancel_left]

@[simp] theorem dataOf_packWord (we : Bool) (a d : Byte) : dataOf (packWord we a d) = d := by
  apply BitVec.eq_of_getLsbD_eq
  intro i hi
  simp only [dataOf, BitVec.getLsbD_extractLsb', getLsbD_packWord, hi, decide_true, Bool.true_and, Nat.zero_add, if_true]

/-- A word is its three fields. -/
theorem packWord_fields (w : BusWord) : packWord (weOf w) (addrOf w) (dataOf w) = w := by
  apply BitVec.eq_of_getLsbD_eq
  intro i hi
  rw [getLsbD_packWord]
  by_cases h8 : i < 8
  · simp only [dataOf, BitVec.getLsbD_extractLsb', h8, if_true, decide_true, Bool.true_and, Nat.zero_add]
  · by_cases h16 : i < 16
    · have h : i - 8 < 8 := by omega
      have e : 8 + (i - 8) = i := by omega
      simp only [addrOf, BitVec.getLsbD_extractLsb', h8, h16, h, e, if_true, if_false, decide_true, Bool.true_and]
    · have e : i = 16 := by omega
      subst e
      rfl

/-- The command of every reserved code (30_encoding.md R83). -/
theorem commandOf_reserved (c : Byte) (h : 8 ≤ c.toNat) : commandOf c = .cmdReserved c := by
  unfold commandOf
  split <;> first | omega | rfl

/-- Whether a row fits a packed word, field by field. -/
theorem fits_packWord (r : OpcodeRow) (we : Bool) (a d : Byte) :
    r.fits (packWord we a d) = (packWord (we && weOf r.mask) (a &&& addrOf r.mask) (d &&& dataOf r.mask) == r.pattern) := by
  have : packWord we a d &&& r.mask = packWord (we && weOf r.mask) (a &&& addrOf r.mask) (d &&& dataOf r.mask) := by
    apply BitVec.eq_of_getLsbD_eq
    intro i hi
    conv_lhs => rw [← packWord_fields r.mask]
    simp only [BitVec.getLsbD_and, getLsbD_packWord]
    by_cases h8 : i < 8
    · simp only [h8, if_true]
    · by_cases h16 : i < 16
      · simp only [h8, h16, if_true, if_false]
      · simp only [h8, h16, if_false]
        cases decide (i = 16) <;> simp
  rw [OpcodeRow.fits, this]

/-- A word is a packed one exactly when its three fields agree. -/
theorem packWord_beq (we : Bool) (a d : Byte) (p : BusWord) :
    (packWord we a d == p) = (we == weOf p && (a == addrOf p && d == dataOf p)) := by
  by_cases h : packWord we a d = p
  · subst h; simp
  · have : ¬ (we = weOf p ∧ a = addrOf p ∧ d = dataOf p) := by
      rintro ⟨rfl, rfl, rfl⟩
      exact h (packWord_fields p)
    have h1 : (packWord we a d == p) = false := by simpa using h
    rw [h1]
    symm
    simpa using this

end Sys2Proof
end

