-- ==== Sys2Proof/Laws/Independence.lean ====
section
/-! SUPPORT. The passes of the decoder neither read nor write the transmit side or `RXBUF`, said once for all of them. -/

namespace Sys2Proof.Machine

/-- A state with the parts DECODE's passes do not touch replaced (10_state.md R22, R23, 42_pulse_codec.md R169). -/
def State.withOthers (s : State) (B R : ProtocolState) (q : List TxItem) (c : Nibble) (v b : Bool) : State :=
  { s with txbuf := B, rxbuf := R, txq := q, csum := c, statusValid := v, statusBadcmd := b }

/-- A pass does the same from a state whose other parts are replaced, and leaves them replaced. -/
def Untouching {α : Type} (f : State → α × State) : Prop :=
  ∀ (s : State) (B R : ProtocolState) (q : List TxItem) (c : Nibble) (v b : Bool),
    f (s.withOthers B R q c v b) = ((f s).1, (f s).2.withOthers B R q c v b)

theorem untouching_expect (e : PulsePair) : Untouching (expect e) := by
  intro s B R q c v b
  rcases expect_cases e s with ⟨o, ho, ha, he⟩ | ⟨hn, he⟩
  · rw [he]
    have ho' : (s.withOthers B R q c v b).rxb[(s.withOthers B R q c v b).rxcur]? = some o := ho
    simp only [expect, ho']
    have ha' : (s.withOthers B R q c v b).matchFn.accepts e o = true := ha
    rw [if_pos ha']
    rfl
  · rw [he]
    rcases expect_cases e (s.withOthers B R q c v b) with ⟨o, ho, ha, _⟩ | ⟨_, he'⟩
    · have := hn o ho
      have ha' : s.matchFn.accepts e o = true := ha
      simp [this] at ha'
    · rw [he']

theorem untouching_decodeBit : Untouching decodeBit := by
  intro s B R q c v b
  simp only [decodeBit, untouching_expect onePair s B R q c v b]
  rcases expect onePair s with ⟨_ | _, s1⟩
  · simp only [untouching_expect zeroPair s1 B R q c v b]
    rcases expect zeroPair s1 with ⟨_ | _, s2⟩ <;> rfl
  · rfl

theorem untouching_decodeBits (is : List Nat) (w : Byte) : Untouching (decodeBits is w) := by
  induction is generalizing w with
  | nil => intro s B R q c v b; rfl
  | cons i rest ih =>
    intro s B R q c v b
    simp only [decodeBits, untouching_decodeBit s B R q c v b]
    rcases decodeBit s with ⟨_ | x, s1⟩
    · rfl
    · exact ih _ s1 B R q c v b

theorem untouching_decodeByte (n : Nat) : Untouching (decodeByte n) := by
  intro s B R q c v b
  simp only [decodeByte, untouching_decodeBits (List.range 8) 0x00#8 s B R q c v b]
  rcases decodeBits (List.range 8) 0x00#8 s with ⟨_ | x, s1⟩ <;> rfl

theorem untouching_runPasses {fs : List (State → Bool × State)} (h : ∀ f ∈ fs, Untouching f) : Untouching (runPasses fs) := by
  induction fs with
  | nil => intro s B R q c v b; rfl
  | cons f rest ih =>
    intro s B R q c v b
    simp only [runPasses, h f (by simp) s B R q c v b]
    rcases f s with ⟨_ | _, s1⟩
    · rfl
    · exact ih (fun g hg => h g (by simp [hg])) s1 B R q c v b

theorem untouching_decodeMessage (k : Nat) : Untouching (decodeMessage k) := by
  apply untouching_runPasses
  intro f hf
  simp only [messagePasses, List.mem_append, List.mem_map, List.mem_singleton] at hf
  rcases hf with ((((rfl | ⟨j, _, rfl⟩) | ⟨e, _, rfl⟩) | rfl) | ⟨j, _, rfl⟩) | rfl <;>
    first | exact untouching_expect _ | exact untouching_decodeByte _

/-- The whole of DECODE's matching leaves the transmit side and `RXBUF` alone, and does not read them. -/
theorem untouching_decodeBurst : Untouching decodeBurst := by
  intro s B R q c v b
  have h : Untouching (runPasses [decodeMessage 0, decodeMessage 1]) := by
    apply untouching_runPasses
    intro f hf
    simp only [List.mem_cons, List.not_mem_nil, or_false] at hf
    rcases hf with rfl | rfl <;> exact untouching_decodeMessage _
  exact h { s with rxshadow := zeroState } B R q c v b

end Sys2Proof.Machine
end

