-- ==== Sys2Proof/Laws/Integrity.lean ====
section
/-! SUPPORT. What the checksum reads and what each step of `FINALIZE` leaves in each byte. -/

namespace Sys2Proof.Machine

/-- The sum, nibble by nibble (41_integrity.md R120). -/
theorem checksumSum_eq (B : ProtocolState) (o : Nat) :
    checksumSum B o = 10 + (lo4 (byteAt B o)).toNat + (lo4 (byteAt B (o + 1))).toNat + (lo4 (byteAt B (o + 2))).toNat
      + (lo4 (byteAt B (o + 3))).toNat + (hi4 (byteAt B (o + 4))).toNat + (hi4 (byteAt B (o + 5))).toNat
      + (hi4 (byteAt B (o + 6))).toNat := by
  have e4 : List.range 4 = [0, 1, 2, 3] := rfl
  have e3 : List.range 3 = [0, 1, 2] := rfl
  simp only [checksumSum, csumStart, e4, e3, List.map_cons, List.map_nil, List.sum_cons, List.sum_nil, Nat.add_zero,
    Nat.add_assoc, Nat.reduceAdd]

/-- The checksum depends on nothing but the summed nibbles (41_integrity.md R121). -/
theorem checksum_congr {A B : ProtocolState} {o : Nat} (hlo : ∀ i < 4, lo4 (byteAt A (o + i)) = lo4 (byteAt B (o + i)))
    (hhi : ∀ i < 3, hi4 (byteAt A (o + 4 + i)) = hi4 (byteAt B (o + 4 + i))) : checksum A o = checksum B o := by
  have l0 := hlo 0 (by omega)
  have l1 := hlo 1 (by omega)
  have l2 := hlo 2 (by omega)
  have l3 := hlo 3 (by omega)
  have h0 := hhi 0 (by omega)
  have h1 := hhi 1 (by omega)
  have h2 := hhi 2 (by omega)
  simp only [Nat.add_zero, Nat.add_assoc, Nat.reduceAdd] at l0 l1 l2 l3 h0 h1 h2
  simp only [checksum, checksumSum_eq, l0, l1, l2, l3, h0, h1, h2]

/-- The bytes after the XFan step (41_integrity.md R125). -/
theorem byteAt_forceXFan (B : ProtocolState) (n : Nat) :
    byteAt (forceXFan B) n =
      if n = 2 ∧ fieldOf B fMode ≠ 1 ∧ fieldOf B fMode ≠ 2 then setBitTo (byteAt B 2) 7 false else byteAt B n := by
  unfold forceXFan
  by_cases h : fieldOf B fMode ≠ 1 ∧ fieldOf B fMode ≠ 2
  · rw [if_pos h, byteAt_setByte]
    by_cases hn : n = 2
    · subst hn; simp [h]
    · have : ¬ (2 = n) := fun e => hn e.symm
      simp [hn, this]
  · rw [if_neg h]
    have : ¬ (n = 2 ∧ fieldOf B fMode ≠ 1 ∧ fieldOf B fMode ≠ 2) := fun e => h e.2
    rw [if_neg this]

/-- The bytes after the markers (41_integrity.md R125). -/
theorem byteAt_writeMarkers (B : ProtocolState) (n : Nat) :
    byteAt (writeMarkers B) n = if n = 3 then 0x50#8 else if n = 11 then 0x70#8 else byteAt B n := by
  simp only [writeMarkers, byteAt_setByte]
  by_cases h3 : n = 3
  · subst h3; simp
  · by_cases h11 : n = 11
    · subst h11; simp
    · have a : ¬ (3 = n) := fun e => h3 e.symm
      have b : ¬ (11 = n) := fun e => h11 e.symm
      simp [h3, h11, a, b]

/-- The bytes after the mirror (41_integrity.md R125). -/
theorem byteAt_writeMirror (B : ProtocolState) (n : Nat) :
    byteAt (writeMirror B) n = if 8 ≤ n ∧ n ≤ 10 then byteAt B (n - 8) else byteAt B n := by
  simp only [writeMirror, copyByte, byteAt_setByte]
  by_cases h : 8 ≤ n ∧ n ≤ 10
  · obtain ⟨h1, h2⟩ := h
    interval_cases n <;> simp
  · have a : n ≠ 8 := by omega
    have b : n ≠ 9 := by omega
    have c : n ≠ 10 := by omega
    simp [h, a.symm, b.symm, c.symm]

/-- The bytes after a checksum is stored (41_integrity.md R125). -/
theorem byteAt_writeSum (B : ProtocolState) (o n : Nat) (ho : o + 7 < 16) :
    byteAt (writeSum B o) n =
      if n = o + 7 then joinNibbles (checksum B o) (lo4 (byteAt B (o + 7))) else byteAt B n := by
  simp only [writeSum, byteAt_setByte]
  by_cases h : n = o + 7
  · subst h; simp [ho]
  · have : ¬ (o + 7 = n) := fun e => h e.symm
    simp [h, this]

end Sys2Proof.Machine
end

