-- ==== Sys2Proof/Laws/PerInstr.lean ====
section
/-! SUPPORT. The statements made per instruction: the word of an instruction has that instruction's row of the opcode
table as the first row it fits (30_encoding.md R86). -/

namespace Sys2Proof.Laws.EncodeFitsItsRow

/-- The word of a well-formed instruction belongs to the row of its mnemonic. -/
def Statement (i : Instr) : Prop :=
  i.wellFormed = true → (opcodeRowOf (encode i)).map OpcodeRow.mnemonic = some i.mnemonic

theorem nop : Statement .nop := fun _ => by decide
theorem clear : Statement .clear := fun _ => by decide
theorem csum0 : Statement .csum0 := fun _ => by decide
theorem csum1 : Statement .csum1 := fun _ => by decide
theorem validate : Statement .validate := fun _ => by decide
theorem finalize : Statement .finalize := fun _ => by decide
theorem encode : Statement .encode := fun _ => by decide
theorem decode : Statement .decode := fun _ => by decide

theorem cmdReserved (code : Byte) : Statement (.cmdReserved code) := by
  unfold Statement
  revert code
  decide

theorem wr (addr data : Byte) : Statement (.wr addr data) := by
  intro h
  have all : addr &&& 255#8 = addr := BitVec.and_allOnes
  have other : (addr == 32#8) = false := by simpa [Instr.wellFormed] using h
  simp [opcodeRowOf, opcodeTable, Sys2Proof.encode, Instr.mnemonic, fits_packWord, packWord_beq, List.find?, weOf, addrOf,
    dataOf, all, other]

theorem rd (addr : Byte) : Statement (.rd addr) := by
  intro _
  simp [opcodeRowOf, opcodeTable, Sys2Proof.encode, Instr.mnemonic, fits_packWord, packWord_beq, List.find?, weOf, addrOf, dataOf]

end Sys2Proof.Laws.EncodeFitsItsRow
end

