-- ==== Sys2Proof/Laws/Registers.lean ====
section
/-! SUPPORT. The register space by address, said once (20_memory.md R61). -/

namespace Sys2Proof.Machine

/-- A read of 0x00 to 0x0F is a byte of `TXBUF` (40_host_access.md R101). -/
theorem readReg_txbuf (s : State) (a : Byte) (h : a.toNat ≤ 0x0F) : readReg s a = byteAt s.txbuf a.toNat := by
  simp [readReg, h]

/-- A read of 0x10 to 0x1F is a byte of `RXBUF` (40_host_access.md R101). -/
theorem readReg_rxbuf (s : State) (a : Byte) (h : 0x10 ≤ a.toNat) (h' : a.toNat ≤ 0x1F) :
    readReg s a = byteAt s.rxbuf (a.toNat - 0x10) := by
  have : ¬ a.toNat ≤ 0x0F := by omega
  simp [readReg, this, h']

/-- `STATUS` is at 0x21 (20_memory.md R61). -/
theorem readReg_status (s : State) : readReg s 0x21#8 = statusByte s := rfl

/-- `CSUM` is at 0x22 (20_memory.md R61). -/
theorem readReg_csum (s : State) : readReg s 0x22#8 = csumByte s := rfl

/-- `CMD` reads 0x00 (10_state.md R30). -/
theorem readReg_cmd (s : State) : readReg s 0x20#8 = 0x00#8 := rfl

/-- A reserved address reads 0x00 (20_memory.md R63). -/
theorem readReg_reserved (s : State) (a : Byte) (h : 0x23 ≤ a.toNat) : readReg s a = 0x00#8 := by
  have h1 : ¬ a.toNat ≤ 0x0F := by omega
  have h2 : ¬ a.toNat ≤ 0x1F := by omega
  have h3 : a.toNat ≠ 0x20 := by omega
  have h4 : a.toNat ≠ 0x21 := by omega
  have h5 : a.toNat ≠ 0x22 := by omega
  simp [readReg, h1, h2, h3, h4, h5]

/-- What a written register leaves: a byte of `TXBUF`, the acknowledgement, or nothing (40_host_access.md R102). -/
theorem writeReg_cases (s : State) (a d : Byte) :
    (a.toNat ≤ 0x0F ∧ writeReg s a d = { s with txbuf := setByte s.txbuf a.toNat d }) ∨
      (a = 0x21#8 ∧ writeReg s a d = ackBadCmd s d) ∨
      (0x0F < a.toNat ∧ a ≠ 0x21#8 ∧ writeReg s a d = s) := by
  by_cases h : a.toNat ≤ 0x0F
  · exact .inl ⟨h, by simp [writeReg, h]⟩
  · by_cases h' : a = 0x21#8
    · subst h'
      exact .inr (.inl ⟨rfl, rfl⟩)
    · have : a.toNat ≠ 0x21 := fun e => h' (BitVec.eq_of_toNat_eq (by simpa using e))
      exact .inr (.inr ⟨by omega, h', by simp [writeReg, h, this]⟩)

end Sys2Proof.Machine
end

