-- ==== Sys2Proof/Laws/Wire.lean ====
section
/-! SUPPORT. The pairs of a transmission, place by place, and how the decoder consumes a list of pairs. -/

namespace Sys2Proof.Machine

@[simp] theorem length_bytePairs (v : Byte) : (bytePairs v).length = 8 := by simp [bytePairs]

/-- The pair of each bit of a byte (42_pulse_codec.md R160). -/
theorem getElem?_bytePairs (v : Byte) (b : Nat) (hb : b < 8) : (bytePairs v)[b]? = some (bitPair (v.getLsbD b)) := by
  simp [bytePairs, hb]

/-- The pairs of a message, part by part (42_pulse_codec.md R163). -/
theorem messagePairs_eq (B : ProtocolState) (k : Nat) :
    messagePairs B k = [headerPair] ++ (bytePairs (byteAt B (8 * k)) ++ (bytePairs (byteAt B (8 * k + 1)) ++
      (bytePairs (byteAt B (8 * k + 2)) ++ (bytePairs (byteAt B (8 * k + 3)) ++ ([zeroPair, onePair, zeroPair, gapPair] ++
      (bytePairs (byteAt B (8 * k + 4)) ++ (bytePairs (byteAt B (8 * k + 5)) ++ (bytePairs (byteAt B (8 * k + 6)) ++
      (bytePairs (byteAt B (8 * k + 7)) ++ [terminatingPair k]))))))))) := by
  have e : List.range 4 = [0, 1, 2, 3] := rfl
  simp only [messagePairs, e, List.flatMap_cons, List.flatMap_nil, footerPairs, List.append_assoc, List.append_nil,
    Nat.add_zero, Nat.add_assoc, Nat.reduceAdd, List.cons_append, List.nil_append]

@[simp] theorem length_messagePairs (B : ProtocolState) (k : Nat) : (messagePairs B k).length = 70 := by
  simp [messagePairs_eq]

@[simp] theorem length_burstPairs (B : ProtocolState) : (burstPairs B).length = 140 := by simp [burstPairs]

/-- The pair of bit `b` of byte `j` of a message: bytes 0 to 3 before the footer, 4 to 7 after it
(42_pulse_codec.md R163). -/
theorem getElem?_messagePairs_data (B : ProtocolState) (k j b : Nat) (hj : j < 8) (hb : b < 8) :
    (messagePairs B k)[if j < 4 then 1 + 8 * j + b else 37 + 8 * (j - 4) + b]? =
      some (bitPair ((byteAt B (8 * k + j)).getLsbD b)) := by
  have part : ∀ (l : List PulsePair) (v : Byte) (r : List PulsePair) (n : Nat), n = l.length + b →
      (l ++ (bytePairs v ++ r))[n]? = some (bitPair (v.getLsbD b)) := by
    intro l v r n hn
    rw [List.getElem?_append_right (by omega), hn, Nat.add_sub_cancel_left,
      List.getElem?_append_left (by simpa using hb), getElem?_bytePairs v b hb]
  rw [messagePairs_eq]
  interval_cases j
  · exact part [headerPair] _ _ _ rfl
  · rw [← List.append_assoc]; exact part _ _ _ _ (by simp)
  · rw [← List.append_assoc, ← List.append_assoc]; exact part _ _ _ _ (by simp)
  · rw [← List.append_assoc, ← List.append_assoc, ← List.append_assoc]; exact part _ _ _ _ (by simp)
  · rw [← List.append_assoc, ← List.append_assoc, ← List.append_assoc, ← List.append_assoc, ← List.append_assoc]
    exact part _ _ _ _ (by simp)
  · rw [← List.append_assoc, ← List.append_assoc, ← List.append_assoc, ← List.append_assoc, ← List.append_assoc,
      ← List.append_assoc]
    exact part _ _ _ _ (by simp)
  · rw [← List.append_assoc, ← List.append_assoc, ← List.append_assoc, ← List.append_assoc, ← List.append_assoc,
      ← List.append_assoc, ← List.append_assoc]
    exact part _ _ _ _ (by simp)
  · rw [← List.append_assoc, ← List.append_assoc, ← List.append_assoc, ← List.append_assoc, ← List.append_assoc,
      ← List.append_assoc, ← List.append_assoc, ← List.append_assoc]
    exact part _ _ _ _ (by simp)

/-- A data pair's place lies in its message. -/
theorem dataIndex_lt (n b : Nat) (hn : n < 16) (hb : b < 8) : dataIndex n b < 140 := by
  simp only [dataIndex]
  split <;> omega

/-- The pair of bit `b` of byte `n` of a transmission (42_pulse_codec.md R160, R161). -/
theorem getElem?_burstPairs_data (B : ProtocolState) (n b : Nat) (hn : n < 16) (hb : b < 8) :
    (burstPairs B)[dataIndex n b]? = some (bitPair ((byteAt B n).getLsbD b)) := by
  have hm := getElem?_messagePairs_data B (n / 8) (n % 8) b (by omega) hb
  have hn8 : 8 * (n / 8) + n % 8 = n := by omega
  rw [hn8] at hm
  unfold dataIndex burstPairs
  by_cases h : n < 8
  · have h0 : n / 8 = 0 := by omega
    rw [h0] at hm ⊢
    rw [Nat.mul_zero, Nat.zero_add, List.getElem?_append_left (by simp; split <;> omega)]
    exact hm
  · have h1 : n / 8 = 1 := by omega
    rw [h1] at hm ⊢
    rw [List.getElem?_append_right (by simp), length_messagePairs, Nat.mul_one, Nat.add_sub_cancel_left]
    exact hm

/-- Every pair of a transmission is a target of its place (42_pulse_codec.md R163, R168). -/
theorem burstPairs_mem_targets (B : ProtocolState) :
    List.Forall₂ (fun p ts => p ∈ ts) (burstPairs B) burstTargets := by
  have one : ∀ p : PulsePair, List.Forall₂ (fun p ts => p ∈ ts) [p] [[p]] := by simp
  have byte : ∀ v : Byte, List.Forall₂ (fun p ts => p ∈ ts) (bytePairs v) (List.replicate 8 bitTargets) := by
    intro v
    have e : List.range 8 = [0, 1, 2, 3, 4, 5, 6, 7] := rfl
    have bit : ∀ b, bitPair b ∈ bitTargets := by decide
    simp only [bytePairs, e, List.map_cons, List.map_nil, List.replicate, bit, List.forall₂_cons, List.Forall₂.nil, true_and]
  have message : ∀ k, List.Forall₂ (fun p ts => p ∈ ts) (messagePairs B k) (messageTargets k) := by
    intro k
    rw [messagePairs_eq]
    exact List.rel_append (one _) <| List.rel_append (byte _) <| List.rel_append (byte _) <| List.rel_append (byte _) <|
      List.rel_append (byte _) <| List.rel_append (by simp : List.Forall₂ (fun (p : PulsePair) ts => p ∈ ts) _
        [[zeroPair], [onePair], [zeroPair], [gapPair]]) <| List.rel_append (byte _) <| List.rel_append (byte _) <|
      List.rel_append (byte _) <| List.rel_append (byte _) (one _)
  exact List.rel_append (message 0) (message 1)

/-- A list whose every pair is accepted by a target of its place is consumed whole. -/
theorem consumedPairs_of_forall₂ (m : MatchFn) {T : List (List PulsePair)} {l : List PulsePair} (rest : List PulsePair)
    (h : List.Forall₂ (fun p ts => ts.any (fun e => m.accepts e p) = true) l T) :
    consumedPairs m T (l ++ rest) = T.length := by
  induction h with
  | nil => simp [consumedPairs]
  | cons ha _ ih => simp [consumedPairs, ha, ih]

/-- Consumption stops at the first pair that no target of its place accepts (42_pulse_codec.md R170). -/
theorem consumedPairs_stop (m : MatchFn) {T : List (List PulsePair)} {l : List PulsePair} (ts : List PulsePair)
    (U : List (List PulsePair)) (o : PulsePair) (rest : List PulsePair)
    (h : List.Forall₂ (fun p ts => ts.any (fun e => m.accepts e p) = true) l T)
    (hs : ts.any (fun e => m.accepts e o) = false) :
    consumedPairs m (T ++ ts :: U) (l ++ o :: rest) = T.length := by
  rw [consumedPairs_append, consumedPairs_of_forall₂ m (o :: rest) h, if_pos rfl, ← h.length_eq,
    List.drop_left]
  simp [consumedPairs, hs]

end Sys2Proof.Machine
end

