-- ==== Sys2Proof/Tests/Slice0.lean ====
section
/-! SUPPORT. Small tests, with the expected results of 95_test_vectors.md (named V-…, W…, P…) or worked by hand from the
rules, and a witness for the hypotheses of every statement that has some. -/

namespace Sys2Proof.Tests
open Sys2Proof Sys2Proof.Machine

/-! ### Helpers -/

/-- A state buffer from its first bytes; the rest are 0x00. -/
def buf (bytes : List Byte) : ProtocolState :=
  (List.range 16).foldl (fun B n => setByte B n (bytes.getD n 0x00#8)) zeroState

/-- W2 before FINALIZE. -/
def w2Raw : ProtocolState := buf [0x79, 0x06, 0, 0, 0x01, 0, 0, 0, 0, 0, 0, 0, 0, 0, 0x05, 0]

/-- W2 after FINALIZE. -/
def w2 : ProtocolState := buf [0x79, 0x06, 0, 0x50, 0x01, 0, 0, 0x90, 0x79, 0x06, 0, 0x70, 0, 0, 0x05, 0x90]

/-- The reset state with a given `TXBUF`. -/
def withTx (B : ProtocolState) : State := { State.reset with txbuf := B }

/-- The reset state with a captured burst and the tolerance `MATCH_EXACT`. -/
def withRx (burst : List PulsePair) : State := { State.reset with rxb := burst, matchFn := .exact }

/-- What the step of one bus word leaves, read through `f`. -/
def after {α : Type} (s : State) (w : BusWord) (f : State → α) : Option α :=
  match step { s with pending := [.bus w] } with
  | .next t => some (f t)
  | _ => none

/-- What an instruction leaves; the state itself where it gives no next state. -/
def nextOf (i : Instr) (s : State) : State :=
  match exec i s with
  | .next t => t
  | _ => s

/-! ### Well-formedness -/

theorem test_wellFormed_refuses_wr_of_cmd : (Instr.wr 0x20 0x05).wellFormed = false := by decide
theorem test_wellFormed_refuses_reserved_code_7 : (Instr.cmdReserved 0x07).wellFormed = false := by decide
theorem test_wellFormed_takes_reserved_code_8 : (Instr.cmdReserved 0x08).wellFormed = true := by decide
theorem test_wellFormed_takes_wr_beside_cmd : (Instr.wr 0x1F 0).wellFormed = true ∧ (Instr.wr 0x21 0).wellFormed = true := by
  decide

/-! ### Decoding: words written out bit by bit from 30_encoding.md R80 to R83 -/

theorem test_decode_nop : decode 0b10010000000000000#17 = .nop := by decide
theorem test_decode_clear : decode 0b10010000000000001#17 = .clear := by decide
theorem test_decode_csum0 : decode 0b10010000000000010#17 = .csum0 := by decide
theorem test_decode_csum1 : decode 0b10010000000000011#17 = .csum1 := by decide
theorem test_decode_validate : decode 0b10010000000000100#17 = .validate := by decide
theorem test_decode_finalize : decode 0b10010000000000101#17 = .finalize := by decide
theorem test_decode_encode : decode 0b10010000000000110#17 = .encode := by decide
theorem test_decode_decode : decode 0b10010000000000111#17 = .decode := by decide
theorem test_decode_cmdReserved : decode 0b10010000000001000#17 = .cmdReserved 0x08 ∧
    decode 0b10010000011111111#17 = .cmdReserved 0xFF := by decide
theorem test_decode_wr : decode 0b10000010110101011#17 = .wr 0x05 0xAB := by decide
/-- V-H8: the DATA bits of an RD are ignored. -/
theorem test_decode_rd : decode 0b00000010111111111#17 = .rd 0x05 := by decide
theorem test_decodeTableWord : decodeTableWord 24 0x12006 = some .encode ∧ decodeTableWord 24 0x20000 = none := by decide
theorem test_decode_rejects_wider_words : decodeNat 0x20000 = .error .notABusWord := by rfl

/-! ### One step of each instruction -/

/-- V-H4, the read. -/
theorem test_rd_txbuf : after (withTx (buf [0, 0, 0, 0, 0, 0xAB])) 0x00500 State.hostReads = some [0xAB] := by decide
/-- V-H11 and V-H3: STATUS 0x07 is read as 0x07, a reserved address as 0x00. -/
theorem test_rd_status : after { State.reset with statusValid := true, statusMatch := true, statusBadcmd := true }
    0x02100 State.hostReads = some [0x07] ∧ after State.reset 0x0FF00 State.hostReads = some [0x00] := by decide
/-- V-H4, the write. -/
theorem test_wr_txbuf : after State.reset 0x105AB State.txbuf = some (buf [0, 0, 0, 0, 0, 0xAB]) := by decide
/-- V-H13 and V-H12: only bit 2 of the data clears, and only BADCMD. -/
theorem test_wr_status : after { State.reset with statusValid := true, statusMatch := true, statusBadcmd := true }
    0x12104 statusByte = some 0x03 ∧ after { State.reset with statusBadcmd := true } 0x12103 statusByte = some 0x04 := by
  decide
/-- V-H11. -/
theorem test_nop : after { State.reset with statusBadcmd := true } 0x12000 statusByte = some 0x04 := by decide
/-- V-H9. -/
theorem test_clear : after (withTx w2) 0x12001 State.txbuf = some (buf []) := by decide
/-- V-C2 and V-C6: only the summed nibbles count. -/
theorem test_csum0 : after (withTx (buf [0xFF, 0xFF, 0xFF, 0xFF, 0xFF, 0xFF, 0xFF])) 0x12002 csumByte = some 0x03 ∧
    after (withTx (buf [0xF0, 0xF0, 0xF0, 0xF0, 0x0F, 0x0F, 0x0F])) 0x12002 csumByte = some 0x0A := by decide
/-- V-C4 and V-C10: block 1, without Fan's nibble and without byte 15. -/
theorem test_csum1 : after (withTx w2) 0x12003 csumByte = some 0x09 ∧
    after (withTx (buf [0, 0, 0, 0, 0, 0, 0, 0, 0, 0, 0, 0, 0, 0, 0, 0xFF])) 0x12003 csumByte = some 0x0A := by decide
/-- V-V5: a wrong marker and a wrong high nibble of the mirror are still valid. -/
theorem test_validate_accepts : after (withTx (setByte (setByte w2 3 0x00) 9 0xF6)) 0x12004 State.statusValid = some true := by
  decide
/-- V-V6 and V-V8: one wrong block is not valid. -/
theorem test_validate_refuses : after (withTx (setByte w2 9 0x00)) 0x12004 State.statusValid = some false ∧
    after (withTx (buf [0x06, 0, 0, 0, 0, 0, 0, 0, 0, 0, 0, 0, 0, 0, 0x06])) 0x12004 State.statusValid = some false := by decide
/-- W2. -/
theorem test_finalize_w2 : after (withTx w2Raw) 0x12005 State.txbuf = some w2 := by decide +kernel
/-- V-F12: Heat clears XFan in byte 2 and its mirror; the low nibble of byte 15 stays. -/
theorem test_finalize_heat : after (withTx (buf [0x0C, 0x08, 0x80, 0, 0, 0, 0, 0, 0, 0, 0, 0, 0x80, 0, 0x02, 0x03])) 0x12005
    State.txbuf = some (buf [0x0C, 0x08, 0, 0x50, 0, 0, 0, 0xE0, 0x0C, 0x08, 0, 0x70, 0x80, 0, 0x02, 0x63]) := by decide +kernel
/-- V-E3: the carrier and the first four pairs. -/
theorem test_encode_first_items : (after (withTx w2) 0x12006 State.txq).map (List.take 5) = some
    [.carrier 38000, .pair ⟨9010, 4505⟩, .pair ⟨680, 1530⟩, .pair ⟨680, 510⟩, .pair ⟨680, 510⟩] := by decide +kernel
/-- V-E3: 141 items and 317645 µs. -/
theorem test_encode_duration : after (withTx w2) 0x12006 (fun t => (t.txq.length, totalUs t.txq)) = some (141, 317645) := by
  decide +kernel
/-- V-D1 and V-D8: the round trip, and a flip outside the summed nibbles that is accepted. -/
theorem test_decode_match : after (withRx (burstPairs w2)) 0x12007 (fun t => (statusByte t, t.rxcur, t.rxbuf)) =
      some (0x02, 140, w2) ∧
    after (withRx ((burstPairs w2).set 24 ⟨680, 1530⟩)) 0x12007 State.rxbuf = some (setByte w2 2 0x80) := by decide +kernel
/-- V-D7 and V-D4: a checksum failure and a framing mismatch. -/
theorem test_decode_no_match : after (withRx ((burstPairs w2).set 9 ⟨680, 1530⟩)) 0x12007
      (fun t => (statusByte t, t.rxcur, t.rxbuf)) = some (0x00, 140, buf []) ∧
    after (withRx ((burstPairs w2).set 33 ⟨680, 1530⟩)) 0x12007 State.rxcur = some 33 := by decide +kernel
/-- V-B1. -/
theorem test_cmdReserved : after State.reset 0x12008 statusByte = some 0x04 := by decide
/-- V-B2 and V-B3. -/
theorem test_cmdReserved_sticky : after { State.reset with statusBadcmd := true } 0x12080 statusByte = some 0x04 ∧
    after State.reset 0x120FF State.txq = some [] := by decide

/-! ### The table's words as the first transaction after reset -/

/-- The machine runs the word the host issues. -/
theorem test_withFetchWord : step (State.reset.withFetchWord 24 0x12004) = exec .validate State.reset := by rfl

/-! ### Other parts -/

/-- V-D19 and V-D20: the illustrative tolerances on a zero pair. -/
theorem test_window : (MatchFn.window 0 25 0 25).accepts ⟨680, 510⟩ ⟨710, 470⟩ = true ∧
    (MatchFn.window 0 25 0 25).accepts ⟨680, 1530⟩ ⟨680, 510⟩ = false ∧
    (MatchFn.window 0 0 1100 0).accepts ⟨680, 1530⟩ ⟨680, 510⟩ = true := by decide
/-- W2: the fields of the finalized state. -/
theorem test_fields : fieldOf w2 fMode = 1 ∧ fieldOf w2 fTemp = 6 ∧ fieldOf w2 fFan = 5 ∧ fieldOf w2 fBasicFan = 3 ∧
    fieldOf w2 fSum1 = 9 ∧ fieldOf w2 fSum2 = 9 := by decide
/-- P1, lines 1, 2 and 5, with a comment. -/
theorem test_assemble : assembleText ['C', 'L', 'E', 'A', 'R', ' ', ';', 'x', '\n', 'W', 'R', ' ', 'T', 'X', 'B', 'U', 'F', '+', '0', ',',
    ' ', '0', 'x', '7', '9', '\n', 'W', 'R', ' ', 'T', 'X', 'B', 'U', 'F', '+', '1', '4', ',', '5'] =
    some [0x12001, 0x10079, 0x10E05] := by decide +kernel
theorem test_assemble_refuses_cmdres_7 : assembleText ['C', 'M', 'D', 'R', 'E', 'S', ' ', '7'] = none := by decide +kernel

/-! ### Witnesses: concrete values that meet the hypotheses of the statements -/

theorem witness_StepRunsTheDecodedTransaction :
    ({ State.reset with pending := [.bus 0x12005, .rewind] } : State).pending = .bus 0x12005 :: [.rewind] ∧
      decode 0x12005 = .finalize ∧ Instr.finalize.wellFormed = true := by decide
theorem witness_DecodeAndEncodeAgree : (Instr.cmdReserved 0xFF).wellFormed = true ∧ (Instr.wr 0xFF 0xFF).wellFormed = true := by
  decide
theorem witness_OnlyBusWordsDecode : 2 ^ 17 ≤ 131072 ∧ 131071 < 2 ^ 17 := by decide
theorem witness_IllFormedTermsAreRefused : (0x07#8).toNat < 8 ∧ (0x00#8).toNat < 8 := by decide
theorem witness_NothingPendingWaits : State.reset.pending = [] := by decide
/-- The boundary addresses of an RD: each clause has its own. -/
theorem witness_ReadReturnsTheRegister : (0x0F#8).toNat ≤ 0x0F ∧ ¬(0x10#8).toNat ≤ 0x0F ∧ (0x1F#8).toNat ≤ 0x1F ∧
    ¬(0x20#8).toNat ≤ 0x1F ∧ readReg (withTx (buf [])) 0x20 = 0 ∧
    readReg { State.reset with csum := 0xA } 0x22 = 0x0A ∧ readReg State.reset 0x23 = 0 := by decide
/-- The boundary addresses of a WR: each clause has its own, and no address meets two. -/
theorem witness_WriteHasItsEffectOnly : 0x0F#8 ≠ 0x20#8 ∧ (0x0F#8).toNat ≤ 0x0F ∧ 0x0F < (0x10#8).toNat ∧
    0x0F < (0x22#8).toNat ∧ 0x10#8 ≠ 0x21#8 ∧ 0x22#8 ≠ 0x21#8 ∧ ¬(0x21#8).toNat ≤ 0x0F := by decide
/-- Each case of what an address reads after a WR. -/
theorem witness_RegisterSpaceAfterAWrite : readReg (writeReg State.reset 0x0F 0x5A) 0x0F = 0x5A ∧
    readReg (writeReg { State.reset with statusBadcmd := true, statusMatch := true } 0x21 0x04) 0x21 = 0x02 ∧
    readReg (writeReg (withTx w2) 0x10 0xFF) 0x10 = 0x00 ∧ readReg (writeReg (withTx w2) 0x0E 0xFF) 0x0F = 0x90 := by decide
theorem witness_SingleBitFlip : inSummedNibble 0 3 = true ∧ inSummedNibble 0 4 = false ∧ inSummedNibble 14 4 = true ∧
    inSummedNibble 15 7 = false ∧ inSummedNibble 7 4 = false ∧ checksum (flipBit w2 4 4) 0 ≠ checksum w2 0 := by decide
theorem witness_ValidityReadsNothingElse : (∀ n < 16, ∀ b < 8, (inSummedNibble n b || inStoredNibble n b) = true →
    (byteAt w2 n).getLsbD b = (byteAt (setByte w2 3 0x00) n).getLsbD b) ∧ w2 ≠ setByte w2 3 0x00 := by decide
theorem witness_RepeatedCommands : (Instr.finalize ∈ [Instr.nop, .clear, .csum0, .csum1, .validate, .finalize]) ∧
    8 ≤ (0x08#8).toNat := by decide
theorem witness_CmdWriteExecutesItsCommand : ({ State.reset with pending := [.bus (1#1 ++ 0x20#8 ++ 0x07#8), .rewind] } : State).pending =
      .bus (1#1 ++ 0x20#8 ++ 0x07#8) :: [.rewind] ∧
    ({ State.reset with pending := [.bus (1#1 ++ 0x20#8 ++ 0x08#8)] } : State).pending = .bus (1#1 ++ 0x20#8 ++ 0x08#8) :: [] := by
  decide
/-- A WR beside 0x21 meets every hypothesis. -/
theorem witness_StatusRegisterIsAsLaidOut : exec (.wr 0x22 0xFF) (withTx w2) = .next (withTx w2) ∧
    (∀ c : Byte, Instr.wr 0x22 0xFF ≠ .cmdReserved c) ∧ (∀ v : Byte, Instr.wr 0x22 0xFF ≠ .wr 0x21 v) ∧
    Instr.wr 0x22 0xFF ≠ .validate ∧ Instr.wr 0x22 0xFF ≠ .decode := ⟨by rfl, by simp, by simp, by simp, by simp⟩
theorem witness_CsumRegisterIsAsLaidOut : exec .finalize (withTx w2Raw) = .next (nextOf .finalize (withTx w2Raw)) ∧
    Instr.finalize ≠ .csum0 ∧ Instr.finalize ≠ .csum1 := ⟨by rfl, by decide, by decide⟩
/-- Both ends of the range, and both outcomes of a DECODE. -/
theorem witness_ReceiveBufferHoldsTheLastMatch :
    readReg { State.reset with rxbuf := w2 } 0x10 = 0x79 ∧ readReg { State.reset with rxbuf := w2 } 0x1F = 0x90 ∧
    (nextOf .decode (withRx (burstPairs w2))).rxbuf = w2 ∧
    (nextOf .decode { withRx [gapPair] with rxbuf := w2 }).rxbuf = w2 := by decide +kernel
theorem witness_ValidIsASnapshot : exec .clear (withTx w2) = .next (withTx zeroState) ∧ Instr.clear ≠ .validate :=
  ⟨by rfl, by decide⟩
theorem witness_TransmitQueueIsOnlyAppendedTo : exec .encode (withTx w2) = .next (nextOf .encode (withTx w2)) ∧
    exec .nop (withTx w2) = .next (withTx w2) ∧ Instr.nop ≠ .encode := ⟨rfl, rfl, by decide⟩
theorem witness_TrailingPairsAreNotExamined : 140 ≤ (withRx (burstPairs w2)).ahead.length ∧
    (nextOf .decode (withRx (burstPairs w2))).statusMatch = true := by decide +kernel
theorem witness_ReservedCodeRaisesBadCmd : 8 ≤ (0x08#8).toNat ∧ 8 ≤ (0xFF#8).toNat := by decide
theorem witness_BadcmdIsSticky_set : exec (.cmdReserved 0x08) State.reset = .next (raiseBadCmd State.reset) := by rfl
theorem witness_BadcmdIsSticky_cleared : exec (.wr 0x21 0x04) (raiseBadCmd State.reset) = .next State.reset ∧
    (0x04#8).getLsbD 2 = true := ⟨by rfl, by decide⟩
theorem witness_BadcmdIsSticky_kept : exec (.wr 0x21 0x03) (raiseBadCmd State.reset) = .next (raiseBadCmd State.reset) ∧
    (0x03#8).getLsbD 2 = false := ⟨by rfl, by decide⟩
/-- The WR of a read-only address meets the hypothesis of every clause. -/
theorem witness_EachRegisterHasItsWriters_all : (∀ c : Byte, Instr.wr 0x10 0xAA ≠ .cmdReserved c) ∧
    (∀ d : Byte, Instr.wr 0x10 0xAA ≠ .wr 0x21 d) ∧ (∀ a : Byte, Instr.wr 0x10 0xAA ≠ .rd a) := ⟨by simp, by simp, by simp⟩
theorem witness_EachRegisterHasItsWriters : exec (.wr 0x10 0xAA) (withTx w2) = .next (withTx w2) ∧ 0x0F < (0x10#8).toNat ∧
    exec .csum0 (withTx w2) = .next { withTx w2 with csum := 0x9 } := ⟨by rfl, by decide, by rfl⟩
theorem witness_CommandsDoNotReadTheReceiveBuffer : (∀ a, Instr.clear ≠ .rd a) ∧
    exec .clear (withTx w2) = .next (withTx zeroState) := ⟨by simp, by rfl⟩
theorem witness_ExpectAdvancesOnlyOnAMatch : (withRx [headerPair]).rxcur < (withRx [headerPair]).rxb.length ∧
    (expect headerPair (withRx [headerPair])).1 = true ∧ (expect gapPair (withRx [headerPair])).1 = false ∧
    (withRx []).rxb.length ≤ (withRx []).rxcur := by decide
theorem witness_DecodeBit : (withRx [zeroPair]).rxcur < (withRx [zeroPair]).rxb.length ∧
    (decodeBit (withRx [zeroPair])).1 = some false ∧ (decodeBit (withRx [onePair])).1 = some true ∧
    (decodeBit (withRx [gapPair])).1 = none ∧ (withRx []).rxb.length ≤ (withRx []).rxcur := by decide
theorem witness_DecodeIsTheDeclarativeDecoder :
    consumedPairs .exact burstTargets (withRx (burstPairs w2)).ahead = 140 ∧
      receivedState .exact (burstPairs w2) = w2 ∧
      consumedPairs .exact burstTargets (withRx ((burstPairs w2).take 139)).ahead = 139 := by decide +kernel
theorem witness_DecodeOutcome : (withRx (burstPairs w2)).CursorInBounds ∧
    (nextOf .decode (withRx (burstPairs w2))).statusMatch = true ∧
    (nextOf .decode (withRx [headerPair, gapPair])).statusMatch = false ∧
    (nextOf .decode (withRx [headerPair, gapPair])).rxcur = 1 ∧ burstTargets[1 - 0]? = some [onePair, zeroPair] ∧
    (∀ e ∈ [onePair, zeroPair], MatchFn.exact.accepts e gapPair = false) := by decide +kernel
theorem witness_DecodeOfAnExhaustedBuffer : (withRx [headerPair]).rxb.length ≤ { withRx [headerPair] with rxcur := 1 }.rxcur ∧
    State.reset.rxb.length ≤ State.reset.rxcur := by decide
theorem witness_EncodedStateDecodesToItself_encode :
    exec .encode (withTx w2) = .next (nextOf .encode (withTx w2)) ∧
      exec .encode (withTx zeroState) = .next (nextOf .encode (withTx zeroState)) := ⟨rfl, rfl⟩
theorem witness_EncodedStateDecodesToItself :
    (nextOf .encode (withTx w2)).txq = (withTx w2).txq ++ (.carrier 38000#32 :: (burstPairs w2).map .pair) ∧
      (withRx (burstPairs w2 ++ [gapPair])).ahead = burstPairs w2 ++ [gapPair] ∧
      (∀ p ∈ burstPairs w2, MatchFn.exact.accepts p p = true) ∧
      MatchFn.exact.accepts ⟨680#16, 1530#16⟩ ⟨680#16, 510#16⟩ = false ∧ isValid w2 = true ∧
      isValid zeroState = false := by decide +kernel
/-- A framing pair at both ends of a burst. -/
theorem witness_OneWrongPair_framing :
    (withRx ((burstPairs w2).set 139 gapPair)).ahead = (burstPairs w2).set 139 gapPair ++ [] ∧
      (burstPairs w2)[139]? ≠ some gapPair ∧ (burstPairs w2)[0]? ≠ some gapPair ∧ 139 % 70 = 69 ∧ 0 % 70 = 0 ∧
      (withRx []).matchFn = .exact := by decide +kernel
/-- A data pair at each end of both runs of data pairs. -/
theorem witness_OneWrongPair_data :
    (withRx ((burstPairs w2).set 138 headerPair)).ahead = (burstPairs w2).set 138 headerPair ++ [] ∧
      headerPair ≠ ⟨680#16, 1530#16⟩ ∧ headerPair ≠ ⟨680#16, 510#16⟩ ∧ 138 % 70 = 68 ∧ 1 % 70 = 1 ∧
      32 % 70 ≤ 32 ∧ 37 ≤ 37 % 70 := by decide +kernel
/-- The first and the last bit, a summed one and a stored one among them. -/
theorem witness_OneFlippedDataBit :
    (withRx ((burstPairs w2).set (dataIndex 0 0) (bitPair (!(byteAt w2 0).getLsbD 0)))).ahead =
        (burstPairs w2).set (dataIndex 0 0) (bitPair (!(byteAt w2 0).getLsbD 0)) ++ [] ∧
      isValid w2 = true ∧ inSummedNibble 0 0 = true ∧ inStoredNibble 15 7 = true ∧
      (inSummedNibble 15 3 || inStoredNibble 15 3) = false ∧ dataIndex 15 7 = 138 := by decide +kernel
theorem witness_ResetEvent : ({ withTx w2 with pending := [.reset] } : State).pending = .reset :: [] := by decide
theorem witness_TransportActs : ({ withTx w2 with pending := [.capture [gapPair], .rewind] } : State).pending =
      .capture [gapPair] :: [.rewind] ∧
    ({ withTx w2 with pending := [.receive [gapPair]] } : State).pending = .receive [gapPair] :: [] ∧
    ({ withTx w2 with pending := [.rewind] } : State).pending = .rewind :: [] ∧
    ({ withTx w2 with pending := [.take 1] } : State).pending = .take 1 :: [] ∧
    ({ withTx w2 with pending := [.transportReset []] } : State).pending = .transportReset [] :: [] := by decide
theorem witness_CursorInBounds : ({ withRx [headerPair] with pending := [.bus 0x12007] } : State).CursorInBounds ∧
    after (withRx [headerPair]) 0x12007 State.rxcur = some 1 := by decide
theorem witness_QueueLegal : ({ withTx w2 with txq := [.pair gap2Pair] } : State).TxqLegal := by decide
theorem witness_Tolerance : step (withRx [headerPair]) = .next (withRx [headerPair]) := by rfl
theorem witness_Pseudo : 8 ≤ (0x08#8).toNat ∧ 8 ≤ (0xFF#8).toNat := by decide
theorem witness_Ldtx : ({ State.reset with pending := (AsmLine.ldtx w2).words.map .bus ++ [.rewind] } : State).pending =
    (AsmLine.ldtx w2).words.map .bus ++ [.rewind] := by decide
theorem witness_HostAddress : registerAt (hostAddress 0xFF) = some 0xFF := by simp [registerAt, hostAddress]

end Sys2Proof.Tests
end

section
/-! SUPPORT. What an instruction and a step can do, said once: the reading of DECODE's outcomes, then one case per
instruction, then one case per input. -/

namespace Sys2Proof.Machine

/-- What `ENCODE` appends to `TXQ`: the carrier, then the 140 pairs (42_pulse_codec.md R164). -/
def encodedItems (B : ProtocolState) : List TxItem := .carrier carrierHz :: (burstPairs B).map .pair

/-- The state in which DECODE's passes end, `n` pairs further and with `sh` assembled (42_pulse_codec.md R169). -/
@[simp] def State.afterPasses (s : State) (n : Nat) (sh : ProtocolState) : State :=
  { s with rxcur := s.rxcur + n, rxshadow := sh }

/-- All that `exec` can do with each instruction: `ExecEffect s i t` when `t` is a next state of `i` from `s`. -/
inductive ExecEffect (s : State) : Instr → State → Prop
  | nop : ExecEffect s .nop s
  | clear : ExecEffect s .clear { s with txbuf := zeroState }
  | csum0 : ExecEffect s .csum0 { s with csum := checksum s.txbuf 0 }
  | csum1 : ExecEffect s .csum1 { s with csum := checksum s.txbuf 8 }
  | validate : ExecEffect s .validate { s with statusValid := isValid s.txbuf }
  | finalize : ExecEffect s .finalize { s with txbuf := finalized s.txbuf }
  | encode : ExecEffect s .encode { s with txq := s.txq ++ encodedItems s.txbuf }
  | decodeMatch (sh : ProtocolState) (hv : isValid sh = true) :
      ExecEffect s .decode (commitMatch (s.afterPasses 140 sh))
  | decodeNoMatch (n : Nat) (hn : n ≤ 140) (sh : ProtocolState) : ExecEffect s .decode (noMatch (s.afterPasses n sh))
  | cmdReserved (code : Byte) (hc : 8 ≤ code.toNat) : ExecEffect s (.cmdReserved code) (raiseBadCmd s)
  | wr (addr data : Byte) (ha : addr ≠ 0x20#8) : ExecEffect s (.wr addr data) (writeReg s addr data)
  | rd (addr : Byte) : ExecEffect s (.rd addr) (returnToHost s (readReg s addr))

/-- All that `DECODE` can do: a match after 140 pairs and a valid assembled state, or no match after at most 140
(42_pulse_codec.md R169, R170). -/
theorem execDecode_cases (s : State) :
    (∃ sh, isValid sh = true ∧ execDecode s = .next (commitMatch (s.afterPasses 140 sh))) ∨
      ∃ n ≤ 140, ∃ sh, execDecode s = .next (noMatch (s.afterPasses n sh)) := by
  obtain ⟨whole, broken⟩ := decodeBurst_spec s
  by_cases hc : consumedPairs s.matchFn burstTargets s.ahead = 140
  · have hb := whole hc
    generalize (List.range 16).foldl (fun B n => setByte B n (byteFrom s.matchFn s.ahead (dataIndex n 0))) zeroState
      = sh at hb
    cases hv : isValid sh with
    | true => exact .inl ⟨sh, hv, by simp [execDecode, hb, hv]⟩
    | false => exact .inr ⟨140, le_rfl, sh, by simp [execDecode, hb, hv]⟩
  · obtain ⟨sh, hb⟩ := broken hc
    exact .inr ⟨_, consumedPairs_le s.matchFn burstTargets s.ahead, sh, by simp [execDecode, hb]⟩

/-- A next state of `exec` is one of the instruction's effects. -/
theorem exec_effect {i : Instr} {s t : State} (h : exec i s = .next t) : ExecEffect s i t := by
  cases i with
  | nop =>
    obtain rfl := Host.Outcome.next.inj h
    exact .nop
  | clear =>
    obtain rfl := Host.Outcome.next.inj h
    exact .clear
  | csum0 =>
    obtain rfl := Host.Outcome.next.inj h
    exact .csum0
  | csum1 =>
    obtain rfl := Host.Outcome.next.inj h
    exact .csum1
  | validate =>
    obtain rfl := Host.Outcome.next.inj h
    exact .validate
  | finalize =>
    obtain rfl := Host.Outcome.next.inj h
    exact .finalize
  | encode =>
    obtain rfl := Host.Outcome.next.inj ((execEncode_eq s).symm.trans h)
    exact .encode
  | decode =>
    rcases execDecode_cases s with ⟨sh, hv, he⟩ | ⟨n, hn, sh, he⟩
    · obtain rfl := Host.Outcome.next.inj (he.symm.trans h)
      exact .decodeMatch sh hv
    · obtain rfl := Host.Outcome.next.inj (he.symm.trans h)
      exact .decodeNoMatch n hn sh
  | cmdReserved code =>
    simp only [exec, execCmdReserved] at h
    split at h
    · cases h
    · next hc =>
      obtain rfl := Host.Outcome.next.inj h
      exact .cmdReserved code (by omega)
  | wr addr data =>
    simp only [exec, execWr] at h
    split at h
    · cases h
    · next ha =>
      obtain rfl := Host.Outcome.next.inj h
      exact .wr addr data ha
  | rd addr =>
    obtain rfl := Host.Outcome.next.inj h
    exact .rd addr

/-- All that `step` can do: `StepEffect s t` when `t` is what the next input of `s` leaves (log 1, 6, 7, 8, 9). -/
inductive StepEffect (s : State) : State → Prop
  | wait (hp : s.pending = []) : StepEffect s s
  | bus (w : BusWord) (rest : List Input) (t : State) (hp : s.pending = .bus w :: rest)
      (he : exec (decode w) { s with pending := rest } = .next t) : StepEffect s t
  | capture (burst : List PulsePair) (rest : List Input) (hp : s.pending = .capture burst :: rest) :
      StepEffect s (captureBurst { s with pending := rest } burst)
  | receive (more : List PulsePair) (rest : List Input) (hp : s.pending = .receive more :: rest) :
      StepEffect s (receiveMore { s with pending := rest } more)
  | rewind (rest : List Input) (hp : s.pending = .rewind :: rest) : StepEffect s (rewindCursor { s with pending := rest })
  | take (n : Nat) (rest : List Input) (hp : s.pending = .take n :: rest) :
      StepEffect s (takeItems { s with pending := rest } n)
  | reset (rest : List Input) (hp : s.pending = .reset :: rest) : StepEffect s (resetKirc { s with pending := rest })
  | transportReset (burst : List PulsePair) (rest : List Input) (hp : s.pending = .transportReset burst :: rest) :
      StepEffect s (resetTransport { s with pending := rest } burst)

/-- A next state of `step` is the effect of the next input. -/
theorem step_effect {s t : State} (h : step s = .next t) : StepEffect s t := by
  unfold step at h
  split at h
  case h_1 hp => cases h; exact .wait hp
  case h_2 w rest hp => exact .bus w rest t hp h
  case h_3 burst rest hp => cases h; exact .capture burst rest hp
  case h_4 more rest hp => cases h; exact .receive more rest hp
  case h_5 rest hp => cases h; exact .rewind rest hp
  case h_6 n rest hp => cases h; exact .take n rest hp
  case h_7 rest hp => cases h; exact .reset rest hp
  case h_8 burst rest hp => cases h; exact .transportReset burst rest hp

end Sys2Proof.Machine
end

section
/-! SUPPORT. What each instruction leaves in each piece of state: one lemma per piece, from `exec_effect`. -/

namespace Sys2Proof.Machine

/-- A write outside 0x00 to 0x0F leaves `TXBUF` (20_memory.md R64). -/
theorem writeReg_txbuf_of_lt (s : State) {a : Byte} (d : Byte) (h : 0x0F < a.toNat) :
    (writeReg s a d).txbuf = s.txbuf := by
  rcases writeReg_cases s a d with ⟨ha, _⟩ | ⟨_, hw⟩ | ⟨_, _, hw⟩
  · omega
  · simp [hw]
  · rw [hw]

/-- A write clears `BADCMD` exactly at 0x21 with bit 2 set (10_state.md R26). -/
theorem writeReg_statusBadcmd (s : State) (a d : Byte) :
    (writeReg s a d).statusBadcmd = if a = 0x21#8 ∧ d.getLsbD 2 = true then false else s.statusBadcmd := by
  rcases writeReg_cases s a d with ⟨ha, hw⟩ | ⟨ha, hw⟩ | ⟨_, ha, hw⟩
  · have : a ≠ 0x21#8 := by rintro rfl; simp at ha
    simp [hw, this]
  · subst ha
    rw [hw, ackBadCmd_statusBadcmd]
    cases d.getLsbD 2 <;> simp
  · simp [hw, ha]

variable {i : Instr} {s t : State}

theorem exec_txbuf_of_ne (h : exec i s = .next t) (hclear : i ≠ .clear) (hfinalize : i ≠ .finalize)
    (hwr : ∀ a d : Byte, i = .wr a d → 0x0F < a.toNat) : t.txbuf = s.txbuf := by
  cases exec_effect h with
  | clear => exact absurd rfl hclear
  | finalize => exact absurd rfl hfinalize
  | wr a d => exact writeReg_txbuf_of_lt s d (hwr a d rfl)
  | _ => rfl

/-- `RXBUF` is the whole assembled buffer after a DECODE that matched, and stays otherwise (10_state.md R23). -/
theorem exec_rxbuf (h : exec i s = .next t) :
    t.rxbuf = if i = .decode ∧ t.statusMatch = true then t.rxshadow else s.rxbuf := by
  cases exec_effect h with
  | decodeNoMatch n hn sh => simp
  | _ => simp

theorem exec_rxshadow_of_ne (h : exec i s = .next t) (hdecode : i ≠ .decode) : t.rxshadow = s.rxshadow := by
  cases exec_effect h with
  | decodeMatch | decodeNoMatch => exact absurd rfl hdecode
  | _ => simp

theorem exec_rxcur_of_ne (h : exec i s = .next t) (hdecode : i ≠ .decode) : t.rxcur = s.rxcur := by
  cases exec_effect h with
  | decodeMatch | decodeNoMatch => exact absurd rfl hdecode
  | _ => simp

/-- No instruction rewinds the cursor, and none advances it by more than 140 (41_integrity.md R130). -/
theorem exec_rxcur_bounds (h : exec i s = .next t) : s.rxcur ≤ t.rxcur ∧ t.rxcur ≤ s.rxcur + 140 := by
  cases exec_effect h with
  | decodeNoMatch n hn sh => simpa using hn
  | _ => simp

theorem exec_statusMatch_of_ne (h : exec i s = .next t) (hdecode : i ≠ .decode) : t.statusMatch = s.statusMatch := by
  cases exec_effect h with
  | decodeMatch | decodeNoMatch => exact absurd rfl hdecode
  | _ => simp

theorem exec_csum_of_ne (h : exec i s = .next t) (hcsum0 : i ≠ .csum0) (hcsum1 : i ≠ .csum1) : t.csum = s.csum := by
  cases exec_effect h with
  | csum0 => exact absurd rfl hcsum0
  | csum1 => exact absurd rfl hcsum1
  | _ => simp

theorem exec_statusValid_of_ne (h : exec i s = .next t) (hvalidate : i ≠ .validate) : t.statusValid = s.statusValid := by
  cases exec_effect h with
  | validate => exact absurd rfl hvalidate
  | _ => simp

/-- Only a reserved code and an acknowledgement write `BADCMD` (10_state.md R29). -/
theorem exec_statusBadcmd_of_ne (h : exec i s = .next t) (hreserved : ∀ c : Byte, i ≠ .cmdReserved c)
    (hack : ∀ d : Byte, i = .wr 0x21#8 d → d.getLsbD 2 = false) : t.statusBadcmd = s.statusBadcmd := by
  cases exec_effect h with
  | cmdReserved c => exact absurd rfl (hreserved c)
  | wr a d =>
    have : ¬ (a = 0x21#8 ∧ d.getLsbD 2 = true) := by
      rintro ⟨rfl, hd⟩
      rw [hack d rfl] at hd
      exact absurd hd (by decide)
    rw [writeReg_statusBadcmd, if_neg this]
  | _ => simp

/-- KIRC only appends to `TXQ`, and only ENCODE appends (10_state.md R31). -/
theorem exec_txq (h : exec i s = .next t) : t.txq = s.txq ++ if i = .encode then encodedItems s.txbuf else [] := by
  cases exec_effect h <;> simp

theorem exec_hostReads_of_ne (h : exec i s = .next t) (hrd : ∀ a : Byte, i ≠ .rd a) : t.hostReads = s.hostReads := by
  cases exec_effect h with
  | rd a => exact absurd rfl (hrd a)
  | _ => simp

/-- What is the environment's alone: `RXB`, the tolerance and what is pending (10_state.md R32; log 1, 3). -/
theorem exec_environment (h : exec i s = .next t) :
    t.rxb = s.rxb ∧ t.matchFn = s.matchFn ∧ t.pending = s.pending := by
  cases exec_effect h <;> simp

end Sys2Proof.Machine
end

section
/-! SUPPORT. Which parts of the state an instruction does not read. -/

namespace Sys2Proof.Machine

/-- `DECODE` does the same whatever the transmit side and `RXBUF` hold, and leaves them, but for an `RXBUF` that a match
overwrites (10_state.md R22, R23, 42_pulse_codec.md R169). -/
theorem execDecode_withOthers {s t : State} (h : execDecode s = .next t) (B R : ProtocolState) (q : List TxItem)
    (c : Nibble) (v b : Bool) :
    execDecode (s.withOthers B R q c v b) =
      .next (t.withOthers B (if t.statusMatch then t.rxbuf else R) q c v b) := by
  have passes := untouching_decodeBurst s B R q c v b
  rcases hd : decodeBurst s with ⟨_ | _, s1⟩
  · rw [hd] at passes
    simp only [execDecode, hd] at h
    obtain rfl := Host.Outcome.next.inj h
    simp only [execDecode, passes]
    rfl
  · rw [hd] at passes
    have shadow : (s1.withOthers B R q c v b).rxshadow = s1.rxshadow := rfl
    simp only [execDecode, hd] at h
    obtain rfl := Host.Outcome.next.inj h
    simp only [execDecode, passes, shadow]
    cases isValid s1.rxshadow <;> rfl

/-- A DECODE from any other transmit side: the same next state, with that transmit side in place. -/
theorem execDecode_withTransmitSide {s t : State} (h : execDecode s = .next t) (B : ProtocolState) (q : List TxItem)
    (c : Nibble) (v b : Bool) :
    execDecode { s with txbuf := B, txq := q, csum := c, statusValid := v, statusBadcmd := b } =
      .next { t with txbuf := B, txq := q, csum := c, statusValid := v, statusBadcmd := b } := by
  have others := execDecode_withOthers h B s.rxbuf q c v b
  have kept : (if t.statusMatch then t.rxbuf else s.rxbuf) = t.rxbuf := by
    have hr := exec_rxbuf (i := .decode) h
    cases hm : t.statusMatch <;> simp_all
  rwa [kept] at others

theorem writeReg_withTxq (s : State) (a d : Byte) (q : List TxItem) :
    writeReg { s with txq := q } a d = { writeReg s a d with txq := q } := by
  unfold writeReg ackBadCmd
  split
  · rfl
  · split
    · split <;> rfl
    · rfl

/-- No instruction but ENCODE reads or writes `TXQ`: with another queue it does the same and keeps that queue. -/
theorem exec_withTxq_of_ne {i : Instr} {s t : State} (h : exec i s = .next t) (hencode : i ≠ .encode)
    (q : List TxItem) : exec i { s with txq := q } = .next { t with txq := q } := by
  cases i with
  | encode => exact absurd rfl hencode
  | decode =>
    have htx := exec_txbuf_of_ne h (by simp) (by simp) (by simp)
    have hcsum := exec_csum_of_ne h (by simp) (by simp)
    have hvalid := exec_statusValid_of_ne h (by simp)
    have hbadcmd := exec_statusBadcmd_of_ne h (by simp) (by simp)
    simpa [exec, htx, hcsum, hvalid, hbadcmd] using
      execDecode_withTransmitSide h s.txbuf q s.csum s.statusValid s.statusBadcmd
  | cmdReserved c =>
    simp only [exec, execCmdReserved] at h ⊢
    split at h
    · cases h
    · next hc =>
      obtain rfl := Host.Outcome.next.inj h
      exact if_neg hc
  | wr a d =>
    simp only [exec, execWr] at h ⊢
    split at h
    · cases h
    · next ha =>
      obtain rfl := Host.Outcome.next.inj h
      rw [if_neg ha, writeReg_withTxq]
  | _ =>
    obtain rfl := Host.Outcome.next.inj h
    rfl

/-- No instruction reads what `TXQ` holds: with another queue it does the same and appends the same items
(10_state.md R31). -/
theorem exec_withTxq {i : Instr} {s t : State} (h : exec i s = .next t) (q : List TxItem) :
    exec i { s with txq := q } =
      .next { t with txq := q ++ if i = .encode then encodedItems s.txbuf else [] } := by
  by_cases hencode : i = .encode
  · subst hencode
    obtain rfl := Host.Outcome.next.inj ((execEncode_eq s).symm.trans h)
    exact execEncode_eq { s with txq := q }
  · rw [if_neg hencode, List.append_nil]
    exact exec_withTxq_of_ne h hencode q

end Sys2Proof.Machine
end

section
/-! PROOF. The transmit queue: what ENCODE emits is legal, and every step keeps the queue so. -/

namespace Sys2Proof.Machine

/-- Both terminating pairs are among the codec's five (42_pulse_codec.md R163). -/
theorem legal_terminatingPair (k : Nat) : (TxItem.pair (terminatingPair k)).legal = true := by
  unfold terminatingPair
  split <;> decide

/-- Every target of the decoder is one of the codec's five pairs (42_pulse_codec.md R163, R168). -/
theorem legal_of_mem_messageTargets {k : Nat} {ts : List PulsePair} {p : PulsePair} (hts : ts ∈ messageTargets k)
    (hp : p ∈ ts) : (TxItem.pair p).legal = true := by
  simp only [messageTargets, List.mem_append, List.mem_cons, List.mem_replicate, List.not_mem_nil, or_false] at hts
  rcases hts with (((rfl | ⟨_, rfl⟩) | rfl | rfl | rfl | rfl) | ⟨_, rfl⟩) | rfl
  case inr => exact List.mem_singleton.mp hp ▸ legal_terminatingPair k
  all_goals
    revert p
    decide

/-- Every emitted pair is one of the codec's five, since it is a target of its place (42_pulse_codec.md R157). -/
theorem legal_of_mem_burstPairs {B : ProtocolState} {p : PulsePair} (hp : p ∈ burstPairs B) :
    (TxItem.pair p).legal = true := by
  obtain ⟨n, hn, rfl⟩ := List.getElem_of_mem hp
  have places := burstPairs_mem_targets B
  have hT : n < burstTargets.length := places.length_eq ▸ hn
  rcases List.mem_append.mp (List.getElem_mem hT) with hts | hts <;>
    exact legal_of_mem_messageTargets hts (places.get hn hT)

theorem legal_of_mem_encodedItems {B : ProtocolState} {item : TxItem} (h : item ∈ encodedItems B) :
    item.legal = true := by
  rcases List.mem_cons.mp h with rfl | h
  · rfl
  · obtain ⟨p, hp, rfl⟩ := List.mem_map.mp h
    exact legal_of_mem_burstPairs hp

/-- An instruction keeps the queue legal: what it appends, if anything, is a transmission (10_state.md R31). -/
theorem exec_txqLegal {i : Instr} {s t : State} (h : exec i s = .next t) (hs : s.TxqLegal) : t.TxqLegal := by
  intro item hitem
  rw [exec_txq h, List.mem_append] at hitem
  rcases hitem with old | new
  · exact hs item old
  · split at new
    · exact legal_of_mem_encodedItems new
    · exact absurd new List.not_mem_nil

/-- Settles O51: a transaction appends legal items, the transport's acts only take items away, and the rest leaves the
queue. -/
theorem everyStepKeepsTheQueueLegal : Obligations.EveryStepKeepsTheQueueLegal := by
  intro s t hs h
  cases step_effect h with
  | wait => exact hs
  | bus w rest _ _ he => exact exec_txqLegal (s := { s with pending := rest }) he hs
  | take n rest => exact fun item hitem => hs item (List.mem_of_mem_drop hitem)
  | transportReset => exact fun item hitem => absurd hitem List.not_mem_nil
  | capture | receive | rewind | reset => exact hs

/-- Settles O31: the items appended are a transmission after ENCODE and none after anything else. -/
theorem transmitQueueIsOnlyAppendedTo : Obligations.TransmitQueueIsOnlyAppendedTo := by
  intro i s t q h
  exact ⟨_, exec_txq h, fun hi => if_neg hi, exec_withTxq h q⟩

end Sys2Proof.Machine
end

section
/-! PROOF. The status and checksum registers, the receive buffer, and who writes what (10_state.md R22 to R32). -/

namespace Sys2Proof.Machine

/-- The bits of the byte read at 0x21 (10_state.md R26). -/
theorem getLsbD_statusByte (s : State) (b : Nat) :
    (statusByte s).getLsbD b =
      if b = 0 then s.statusValid else if b = 1 then s.statusMatch else if b = 2 then s.statusBadcmd else false := by
  have bits : ∀ badcmd matched valid : Bool, ∀ b < 8,
      ((BitVec.ofBool badcmd ++ BitVec.ofBool matched ++ BitVec.ofBool valid).setWidth 8).getLsbD b =
        if b = 0 then valid else if b = 1 then matched else if b = 2 then badcmd else false := by decide
  by_cases hb : b < 8
  · exact bits s.statusBadcmd s.statusMatch s.statusValid b hb
  · have high : b ≠ 0 ∧ b ≠ 1 ∧ b ≠ 2 := by omega
    simp [high, BitVec.getLsbD_of_ge (statusByte s) b (by omega)]

/-- The bits of the byte read at 0x22 (10_state.md R25). -/
theorem getLsbD_csumByte (s : State) (b : Nat) :
    (csumByte s).getLsbD b = if b < 4 then s.csum.getLsbD b else false := by
  by_cases hb : b < 4
  · have : b < 8 := by omega
    simp [csumByte, hb, this]
  · have : s.csum.getLsbD b = false := BitVec.getLsbD_of_ge _ _ (by omega)
    simp [csumByte, hb, this]

/-- A WR of any address but that of `CMD` writes the register (40_host_access.md R102). -/
theorem exec_wr (s : State) {a : Byte} (d : Byte) (ha : a ≠ 0x20#8) : exec (.wr a d) s = .next (writeReg s a d) :=
  if_neg ha

/-- A WR of a read-only or reserved address has no effect (20_memory.md R63, R64). -/
theorem exec_wr_ignored (s : State) {a : Byte} (d : Byte) (h : 0x0F < a.toNat) (hcmd : a ≠ 0x20#8)
    (hstatus : a ≠ 0x21#8) : exec (.wr a d) s = .next s := by
  rw [exec_wr s d hcmd]
  rcases writeReg_cases s a d with ⟨ha, _⟩ | ⟨ha, _⟩ | ⟨_, _, hw⟩
  · omega
  · exact absurd ha hstatus
  · rw [hw]

/-- A RD returns the register's byte and changes nothing else (40_host_access.md R101; log 2). -/
theorem exec_rd (s : State) (a : Byte) :
    exec (.rd a) s = .next { s with hostReads := s.hostReads ++ [readReg s a] } := rfl

/-- A block of zeros but for byte 0 has the checksum ten plus that byte's low nibble, so every value occurs
(41_integrity.md R120). -/
theorem checksum_setByte_zero (c : Nibble) : checksum (setByte zeroState 0 ((c - 10#4).setWidth 8)) 0 = c := by
  revert c
  decide

/-- Settles O16: the layout, the acknowledgement, and the writers of the three bits. -/
theorem statusRegisterIsAsLaidOut : Obligations.StatusRegisterIsAsLaidOut := by
  intro s
  refine ⟨getLsbD_statusByte s, fun v => exec_wr s v (by decide), fun i t h => ⟨?_, ?_, ?_⟩⟩
  · exact exec_statusValid_of_ne h
  · exact exec_statusMatch_of_ne h
  · exact fun hreserved hstatus => exec_statusBadcmd_of_ne h hreserved fun d hd => absurd hd (hstatus d)

/-- Settles O17: the last clause puts into byte 0 the nibble that is `c` less the start value. -/
theorem csumRegisterIsAsLaidOut : Obligations.CsumRegisterIsAsLaidOut := by
  refine ⟨fun s => ⟨getLsbD_csumByte s, fun v => exec_wr_ignored s v (by decide) (by decide) (by decide),
    fun i t h => exec_csum_of_ne h⟩, fun c => ?_⟩
  exact ⟨{ State.reset with txbuf := setByte zeroState 0 ((c - 10#4).setWidth 8) }, _, rfl, checksum_setByte_zero c⟩

/-- Settles O18: `RXBUF` lies at 0x10 to 0x1F, and what a write and an instruction leave there is said above. -/
theorem receiveBufferHoldsTheLastMatch : Obligations.ReceiveBufferHoldsTheLastMatch := by
  intro s
  refine ⟨fun n hn => ?_, fun i t h => exec_rxbuf h⟩
  have addr : (BitVec.ofNat 8 (0x10 + n)).toNat = 0x10 + n := by simp; omega
  have other : ∀ b : Byte, 0x1F < b.toNat → BitVec.ofNat 8 (0x10 + n) ≠ b := by
    rintro b hb rfl
    omega
  refine ⟨?_, fun v => exec_wr_ignored s v (by omega) (other _ (by decide)) (other _ (by decide))⟩
  rw [exec_rd, readReg_rxbuf s _ (by omega) (by omega), addr, Nat.add_sub_cancel_left]

/-- Settles O23: `VALID` has no writer but VALIDATE. -/
theorem validIsASnapshot : Obligations.ValidIsASnapshot := by
  intro s
  exact ⟨⟨_, rfl, rfl⟩, fun i t h => exec_statusValid_of_ne h⟩

/-- Settles O29, from the two writers of `BADCMD`. -/
theorem badcmdIsStickyUntilAcknowledged : Obligations.BadcmdIsStickyUntilAcknowledged := by
  intro i s t h
  refine ⟨?_, ?_, exec_statusBadcmd_of_ne h⟩
  · rintro ⟨c, rfl⟩
    cases exec_effect h with
    | cmdReserved => exact raiseBadCmd_statusBadcmd s
  · rintro ⟨d, rfl, hd⟩
    cases exec_effect h with
    | wr => rw [writeReg_statusBadcmd, if_pos ⟨rfl, hd⟩]

/-- Settles O30: each clause is the lemma of its piece of state. -/
theorem eachRegisterHasItsWriters : Obligations.EachRegisterHasItsWriters := by
  intro i s t h
  refine ⟨exec_txbuf_of_ne h, fun hdecode => ⟨?_, exec_rxshadow_of_ne h hdecode, exec_rxcur_of_ne h hdecode,
      exec_statusMatch_of_ne h hdecode⟩, exec_csum_of_ne h, exec_statusValid_of_ne h, fun hreserved hstatus => ?_,
    fun hencode => ?_, exec_hostReads_of_ne h, exec_environment h, exec_rxcur_bounds h⟩
  · rw [exec_rxbuf h, if_neg fun e => hdecode e.1]
  · exact exec_statusBadcmd_of_ne h hreserved fun d hd => absurd hd (hstatus d)
  · rw [exec_txq h, if_neg hencode, List.append_nil]

/-- Settles O33: no pass of the decoder touches the transmit side. -/
theorem decodeIsIndependentOfTheTransmitSide : Obligations.DecodeIsIndependentOfTheTransmitSide := by
  intro s B q c v b
  obtain ⟨t, ht⟩ : ∃ t, execDecode s = .next t := by
    rcases execDecode_cases s with ⟨sh, _, he⟩ | ⟨n, _, sh, he⟩ <;> exact ⟨_, he⟩
  exact ⟨t, ht, execDecode_withTransmitSide ht B q c v b⟩

end Sys2Proof.Machine
end

section
/-! PROOF. The command register and the reset values (10_state.md R30, R39). -/

namespace Sys2Proof.Machine

/-- A command's word decodes to the command of its code (30_encoding.md R83, R86). -/
theorem decode_commandWord (c : Byte) : decode (commandWord c) = commandOf c := by
  simp [decode, commandWord]

/-- The eight commands stand in the order of their codes, and every other code is reserved (30_encoding.md R83). -/
theorem commandOf_eq_getD (c : Byte) :
    commandOf c = ([.nop, .clear, .csum0, .csum1, .validate, .finalize, .encode, .decode] : List Instr)[c.toNat]?.getD
      (.cmdReserved c) := by
  by_cases hc : c.toNat < 8
  · unfold commandOf
    interval_cases c.toNat <;> rfl
  · have : 8 ≤ c.toNat := by omega
    rw [commandOf_reserved c this, List.getElem?_eq_none (by simpa using this), Option.getD_none]

/-- The step of a bus word is its instruction's `exec` (20_memory.md R62). -/
theorem step_bus {s : State} {w : BusWord} {rest : List Input} (h : s.pending = .bus w :: rest) :
    step s = exec (decode w) { s with pending := rest } := by
  simp only [step, h]

/-- The step of a reset event (70_reset_and_hazards.md R230). -/
theorem step_reset {s : State} {rest : List Input} (h : s.pending = .reset :: rest) :
    step s = .next (resetKirc { s with pending := rest }) := by
  simp only [step, h]

/-- After reset every address reads 0x00 (10_state.md R39). -/
theorem readReg_reset (a : Byte) : readReg State.reset a = 0x00#8 := by
  by_cases htx : a.toNat ≤ 0x0F
  · exact (readReg_txbuf _ a htx).trans (byteAt_zeroState _)
  by_cases hrx : a.toNat ≤ 0x1F
  · exact (readReg_rxbuf _ a (by omega) hrx).trans (byteAt_zeroState _)
  by_cases hres : 0x23 ≤ a.toNat
  · exact readReg_reserved _ a hres
  · have : a = 0x20#8 ∨ a = 0x21#8 ∨ a = 0x22#8 := by bv_omega
    rcases this with rfl | rfl | rfl <;> decide

/-- Settles O15: the write's word is the command's, which decodes to the command of its code. -/
theorem cmdWriteExecutesItsCommand : Obligations.CmdWriteExecutesItsCommand := by
  refine ⟨fun c s rest hp => ?_, fun s => exec_rd s 0x20#8⟩
  have word : (1#1 ++ 0x20#8 ++ c : BusWord) = commandWord c := rfl
  rw [step_bus hp, word, decode_commandWord, commandOf_eq_getD]

/-- Settles O46. The reset event writes KIRC's registers alone. -/
theorem resetRegistersAreZero : Obligations.ResetRegistersAreZero := by
  refine ⟨fun n _ => ⟨byteAt_zeroState n, byteAt_zeroState n, byteAt_zeroState n⟩, rfl, rfl, rfl, rfl, readReg_reset,
    fun s rest hp => ⟨_, step_reset hp, ?_⟩⟩
  simp [State.SameKirc]

end Sys2Proof.Machine
end

section
/-! PROOF. The register space after a write, and its place in the host's address map (20_memory.md R61 to R64, R67). -/

namespace Sys2Proof.Machine

/-- A host address names a register exactly when it is `KIRC_BASE` plus the register's offset (20_memory.md R67; log 10). -/
theorem registerAt_eq_some_iff (h : Nat) (a : Byte) : registerAt h = some a ↔ h = hostAddress a := by
  have ha : a.toNat < 256 := a.isLt
  unfold registerAt hostAddress
  constructor
  · intro named
    split at named
    next inside =>
      have offset : (BitVec.ofNat 8 (h - Config.kircBase)).toNat = a.toNat := congrArg BitVec.toNat (Option.some.inj named)
      rw [BitVec.toNat_ofNat] at offset
      omega
    next => cases named
  · rintro rfl
    rw [if_pos (by omega), Nat.add_sub_cancel_left, BitVec.ofNat_toNat, BitVec.setWidth_eq]

/-- Settles O57: both directions of the offset map. -/
theorem hostAddressNamesItsRegister : Obligations.HostAddressNamesItsRegister := fun a =>
  ⟨(registerAt_eq_some_iff _ a).mpr rfl, fun h => (registerAt_eq_some_iff h a).mp⟩

/-- No address above 0x0F shows `TXBUF` (20_memory.md R61). -/
theorem readReg_withTxbuf_of_lt (s : State) (T : ProtocolState) {b : Byte} (h : 0x0F < b.toNat) :
    readReg { s with txbuf := T } b = readReg s b := by
  have notTx : ¬ b.toNat ≤ 0x0F := by omega
  unfold readReg
  rw [if_neg notTx, if_neg notTx]
  rfl

/-- A byte written to `TXBUF` is read back at its own address and nowhere else (20_memory.md R61, R64). -/
theorem readReg_setByte_txbuf (s : State) {a : Byte} (d b : Byte) (ha : a.toNat ≤ 0x0F) :
    readReg { s with txbuf := setByte s.txbuf a.toNat d } b = if b = a then d else readReg s b := by
  by_cases hb : b.toNat ≤ 0x0F
  · rw [readReg_txbuf _ b hb, readReg_txbuf s b hb]
    split
    next same => subst same; exact byteAt_setByte_same (by omega)
    next other => exact byteAt_setByte_ne fun e => other (BitVec.eq_of_toNat_eq e.symm)
  · have other : b ≠ a := by rintro rfl; exact hb ha
    rw [if_neg other, readReg_withTxbuf_of_lt s _ (by omega)]

/-- Clearing `BADCMD` masks bit 2 out of the byte read at 0x21 (10_state.md R26). -/
theorem statusByte_clearBadcmd (s : State) : statusByte { s with statusBadcmd := false } = statusByte s &&& 0x03#8 := by
  have masked : ∀ badcmd matched valid : Bool,
      (BitVec.ofBool false ++ BitVec.ofBool matched ++ BitVec.ofBool valid).setWidth 8 =
        (BitVec.ofBool badcmd ++ BitVec.ofBool matched ++ BitVec.ofBool valid).setWidth 8 &&& 0x03#8 := by decide
  exact masked s.statusBadcmd s.statusMatch s.statusValid

/-- No address but 0x21 shows `BADCMD` (20_memory.md R61). -/
theorem readReg_withStatusBadcmd_of_ne (s : State) (v : Bool) {b : Byte} (h : b ≠ 0x21#8) :
    readReg { s with statusBadcmd := v } b = readReg s b := by
  have notStatus : b.toNat ≠ 0x21 := fun e => h (BitVec.eq_of_toNat_eq e)
  unfold readReg
  rw [if_neg notStatus, if_neg notStatus]
  rfl

/-- An acknowledgement with bit 2 set shows at 0x21 alone, and any other shows nowhere (60_exceptions.md R205). -/
theorem readReg_ackBadCmd (s : State) (d b : Byte) :
    readReg (ackBadCmd s d) b = if b = 0x21#8 ∧ d.getLsbD 2 = true then readReg s b &&& 0x03#8 else readReg s b := by
  unfold ackBadCmd
  by_cases hd : d.getLsbD 2 = true
  · rw [if_pos hd]
    by_cases hb : b = 0x21#8
    · subst hb
      rw [if_pos ⟨rfl, hd⟩, readReg_status, readReg_status, statusByte_clearBadcmd]
    · rw [if_neg fun e => hb e.1, readReg_withStatusBadcmd_of_ne s _ hb]
  · rw [if_neg hd, if_neg fun e => hd e.2]

/-- Settles O11: the three things a write can leave (`writeReg_cases`), each read at every address. -/
theorem registerSpaceAfterAWrite : Obligations.RegisterSpaceAfterAWrite := by
  intro a d b s hcmd
  refine ⟨writeReg s a d, exec_wr s d hcmd, ?_⟩
  rcases writeReg_cases s a d with ⟨htx, hw⟩ | ⟨rfl, hw⟩ | ⟨hlt, hstatus, hw⟩
  · have notStatus : a ≠ 0x21#8 := by rintro rfl; exact absurd htx (by decide)
    simp [hw, readReg_setByte_txbuf s d b htx, htx, notStatus]
  · simp [hw, readReg_ackBadCmd]
  · have notTx : ¬ a.toNat ≤ 0x0F := by omega
    simp [hw, notTx, hstatus]

end Sys2Proof.Machine
end

section
/-! PROOF. The decoder, the encoder and the opcode table agree (30_encoding.md R80 to R86). -/

namespace Sys2Proof.Machine

/-- A word with `WE` 0 is an RD, whatever its DATA bits (30_encoding.md R80, R86). -/
@[simp] theorem decode_packWord_read (a d : Byte) : decode (packWord false a d) = .rd a := by
  simp [decode]

/-- A word with `WE` 1 is a WR of every address but that of `CMD` (30_encoding.md R86). -/
theorem decode_packWord_write {a : Byte} (d : Byte) (ha : a ≠ 0x20#8) : decode (packWord true a d) = .wr a d := by
  simp [decode, cmdAddr, ha]

/-- Every word is an RD's, a WR's or a command's (30_encoding.md R86). -/
theorem busWord_cases (w : BusWord) :
    (∃ a d, w = packWord false a d) ∨ (∃ a d, a ≠ 0x20#8 ∧ w = packWord true a d) ∨ ∃ c, w = commandWord c := by
  have fields := packWord_fields w
  cases hwe : weOf w with
  | false => exact .inl ⟨_, _, by rw [← hwe, fields]⟩
  | true =>
    rw [hwe] at fields
    by_cases ha : addrOf w = 0x20#8
    · exact .inr (.inr ⟨dataOf w, by rw [commandWord, cmdAddr, ← ha, fields]⟩)
    · exact .inr (.inl ⟨_, _, ha, fields.symm⟩)

/-- A code is one of the eight commands' or a reserved one (30_encoding.md R83). -/
theorem commandCode_cases (c : Byte) : (∃ n < 8, c = BitVec.ofNat 8 n) ∨ 8 ≤ c.toNat := by
  rcases Nat.lt_or_ge c.toNat 8 with named | reserved
  · exact .inl ⟨c.toNat, named, by simp⟩
  · exact .inr reserved

/-- The command of a code is encoded with that code (30_encoding.md R81, R83). -/
theorem encode_commandOf (c : Byte) : encode (commandOf c) = commandWord c := by
  rcases commandCode_cases c with ⟨n, hn, rfl⟩ | reserved
  · interval_cases n <;> rfl
  · rw [commandOf_reserved c reserved, encode]

theorem wellFormed_commandOf (c : Byte) : (commandOf c).wellFormed = true := by
  rcases commandCode_cases c with ⟨n, hn, rfl⟩ | reserved
  · interval_cases n <;> rfl
  · rw [commandOf_reserved c reserved]
    exact decide_eq_true reserved

/-- Decoding undoes encoding: each constructor by the law of its kind of word. -/
theorem decode_encode {i : Instr} (hi : i.wellFormed = true) : decode (encode i) = i := by
  cases i with
  | rd a => exact decode_packWord_read a 0x00#8
  | wr a d => exact decode_packWord_write d (of_decide_eq_true hi)
  | cmdReserved c => exact (decode_commandWord c).trans (commandOf_reserved c (of_decide_eq_true hi))
  | nop | clear | csum0 | csum1 | validate | finalize | encode | decode => exact decode_commandWord _

theorem wellFormed_decode (w : BusWord) : (decode w).wellFormed = true := by
  rcases busWord_cases w with ⟨a, d, rfl⟩ | ⟨a, d, ha, rfl⟩ | ⟨c, rfl⟩
  · rw [decode_packWord_read, Instr.wellFormed]
  · rw [decode_packWord_write d ha]
    exact decide_eq_true ha
  · rw [decode_commandWord]
    exact wellFormed_commandOf c

/-- Encoding undoes decoding, but for the DATA bits of an RD, which are ignored (30_encoding.md R80). -/
theorem encode_decode (w : BusWord) :
    encode (decode w) = if weOf w then w else packWord false (addrOf w) 0x00#8 := by
  rcases busWord_cases w with ⟨a, d, rfl⟩ | ⟨a, d, ha, rfl⟩ | ⟨c, rfl⟩
  · simp [encode]
  · simp [decode_packWord_write d ha, encode]
  · rw [decode_commandWord, encode_commandOf, commandWord, weOf_packWord, if_pos rfl]

/-- Settles O3: both round trips, and the decoder gives well-formed terms only. -/
theorem decodeAndEncodeAgree : Obligations.DecodeAndEncodeAgree :=
  ⟨fun _ => decode_encode, fun w => ⟨wellFormed_decode w, encode_decode w⟩⟩

/-- An instruction's word belongs to the row of its mnemonic, gathered over the instructions (30_encoding.md R86). -/
theorem opcodeRowOf_encode {i : Instr} (hi : i.wellFormed = true) :
    (opcodeRowOf (encode i)).map OpcodeRow.mnemonic = some i.mnemonic := by
  cases i with
  | nop => exact Laws.EncodeFitsItsRow.nop hi
  | clear => exact Laws.EncodeFitsItsRow.clear hi
  | csum0 => exact Laws.EncodeFitsItsRow.csum0 hi
  | csum1 => exact Laws.EncodeFitsItsRow.csum1 hi
  | validate => exact Laws.EncodeFitsItsRow.validate hi
  | finalize => exact Laws.EncodeFitsItsRow.finalize hi
  | encode => exact Laws.EncodeFitsItsRow.encode hi
  | decode => exact Laws.EncodeFitsItsRow.decode hi
  | cmdReserved c => exact Laws.EncodeFitsItsRow.cmdReserved c hi
  | wr a d => exact Laws.EncodeFitsItsRow.wr a d hi
  | rd a => exact Laws.EncodeFitsItsRow.rd a hi

/-- The row of a word with `WE` 0 does not depend on its DATA bits: every row whose mask keeps some is a write's
(30_encoding.md R80, R86). -/
theorem opcodeRowOf_packWord_read (a d : Byte) :
    opcodeRowOf (packWord false a d) = opcodeRowOf (packWord false a 0x00#8) := by
  simp [opcodeRowOf, opcodeTable, List.find?, fits_packWord, packWord_beq, weOf, addrOf, dataOf]

/-- Settles O4: a word with `WE` 1 is the encoding of what it decodes to, and one with `WE` 0 has the row of its RD. -/
theorem decodeFollowsTheTablesPrecedence : Obligations.DecodeFollowsTheTablesPrecedence := by
  intro w
  have row := opcodeRowOf_encode (wellFormed_decode w)
  rw [encode_decode] at row
  rcases busWord_cases w with ⟨a, d, rfl⟩ | ⟨a, d, ha, rfl⟩ | ⟨c, rfl⟩
  · simpa [opcodeRowOf_packWord_read a d] using row
  · simpa using row
  · simpa [commandWord] using row

/-- Settles O2: the words are those of the eight commands, of one reserved code, of a WR and of an RD. -/
theorem writtenOutWordsDecode : Obligations.WrittenOutWordsDecode := by
  have command (c : Byte) {w : BusWord} (hw : w = commandWord c) : decode w = commandOf c := hw ▸ decode_commandWord c
  have wr : 0b10000010110101011#17 = packWord true 0x05#8 0xAB#8 := by decide
  have rd : 0b00010000100000000#17 = packWord false 0x21#8 0x00#8 := by decide
  refine ⟨command 0x00#8 ?_, command 0x01#8 ?_, command 0x02#8 ?_, command 0x03#8 ?_, command 0x04#8 ?_, command 0x05#8 ?_,
    command 0x06#8 ?_, command 0x07#8 ?_, command 0x08#8 ?_, wr ▸ decode_packWord_write _ (by decide),
    rd ▸ decode_packWord_read _ _⟩
  all_goals decide

end Sys2Proof.Machine
end

section
/-! PROOF. The pseudo-instructions: what their words decode to, and what SEND and LDTX do (30_encoding.md R88). -/

namespace Sys2Proof.Machine

/-- An address of `TXBUF` is not that of `CMD` (20_memory.md R61). -/
theorem txbufAddr_ne_cmd {n : Nat} (hn : n < 16) : BitVec.ofNat 8 n ≠ 0x20#8 := by
  bv_omega

/-- The transactions of `SEND` (30_encoding.md R88). -/
theorem decode_send_words : AsmLine.send.words.map decode = [.finalize, .encode] := by
  simp only [AsmLine.words, List.map_cons, List.map_nil, decode_commandWord]
  rfl

/-- The transactions of `LDTX`, one WR for each byte (30_encoding.md R88). -/
theorem decode_ldtx_words (B : ProtocolState) :
    (AsmLine.ldtx B).words.map decode = (List.range 16).map fun i => .wr (BitVec.ofNat 8 i) (byteAt B i) := by
  rw [AsmLine.words, List.map_map]
  exact List.map_congr_left fun i hi => decode_packWord_write _ (txbufAddr_ne_cmd (List.mem_range.mp hi))

/-- Settles O54: each line's words, by the law of its kind of word. -/
theorem pseudoInstructionsExpand : Obligations.PseudoInstructionsExpand := by
  refine ⟨?_, fun c hc => ?_, ?_, decode_send_words, ?_, decode_ldtx_words⟩
  · simp only [List.map_flatMap, AsmLine.words, List.map_cons, List.map_nil, decode_commandWord]
    rfl
  · simp [AsmLine.words, decode_commandWord, commandOf_reserved c hc]
  · simp [AsmLine.words, decode_packWord_write]
  · simp only [AsmLine.words, List.map_cons, List.map_nil, decode_commandWord, decode_packWord_read]
    rfl

/-- The stored checksums lie outside every summed nibble, so storing one leaves both checksums (41_integrity.md R121). -/
theorem checksum_writeSum (B : ProtocolState) {o p : Nat} (ho : o + 7 < 16) (outside : ∀ i < 7, p + i ≠ o + 7) :
    checksum (writeSum B o) p = checksum B p := by
  have kept : ∀ i < 7, byteAt (writeSum B o) (p + i) = byteAt B (p + i) := fun i hi => by
    rw [byteAt_writeSum B o _ ho, if_neg (outside i hi)]
  refine checksum_congr (fun i hi => ?_) fun i hi => ?_
  · rw [kept i (by omega)]
  · rw [Nat.add_assoc, kept (4 + i) (by omega)]

/-- `FINALIZE` leaves a valid state: each stored nibble is the checksum of its block, and neither store changes a
checksum (41_integrity.md R122, R125). -/
theorem isValid_finalized (B : ProtocolState) : isValid (finalized B) = true := by
  unfold finalized isValid
  generalize writeMirror (writeMarkers (forceXFan B)) = C
  have sums : ∀ p, p = 0 ∨ p = 8 → checksum (writeSum (writeSum C 0) 8) p = checksum C p := fun p hp => by
    rw [checksum_writeSum _ (by decide) (by omega), checksum_writeSum _ (by decide) (by omega)]
  have block0 : checksum (writeSum C 0) 8 = checksum C 8 := checksum_writeSum C (by decide) (by omega)
  simp [sums, block0, byteAt_writeSum]

/-- Settles O36: FINALIZE leaves a valid `TXBUF`, and ENCODE appends the transmission of what it finds there. -/
theorem sendTransmitsAValidState : Obligations.SendTransmitsAValidState :=
  ⟨decode_send_words, fun s => ⟨_, _, rfl, execEncode_eq _, isValid_finalized s.txbuf, rfl⟩⟩

/-- A run takes its first step and goes on from there. -/
theorem run_succ {s t : State} (k : Nat) (h : step s = .next t) : core.run (k + 1) s = core.run k t := by
  have first : core.step s = .next t := h
  simp only [Host.Core.run, first]

/-- A WR to `TXBUF` that is next writes its byte in one step (40_host_access.md R102). -/
theorem step_wr_txbuf {s : State} {n : Nat} {d : Byte} {rest : List Input} (hn : n < 16)
    (hp : s.pending = .bus (packWord true (BitVec.ofNat 8 n) d) :: rest) :
    step s = .next { s with txbuf := setByte s.txbuf n d, pending := rest } := by
  have addr : (BitVec.ofNat 8 n).toNat = n := by simp; omega
  have inTx : (BitVec.ofNat 8 n).toNat ≤ 0x0F := by omega
  rw [step_bus hp, decode_packWord_write d (txbufAddr_ne_cmd hn), exec_wr _ d (txbufAddr_ne_cmd hn), writeReg, if_pos inTx,
    addr]

/-- The bytes after each place of a list is written with what `f` gives it. -/
theorem byteAt_foldl_setByte (f : Nat → Byte) (places : List Nat) (T : ProtocolState) {m : Nat} (hm : m < 16) :
    byteAt (places.foldl (fun T n => setByte T n (f n)) T) m = if m ∈ places then f m else byteAt T m := by
  induction places generalizing T with
  | nil => simp
  | cons n places ih =>
    rw [List.foldl_cons, ih, byteAt_setByte]
    by_cases later : m ∈ places
    · simp [later]
    · by_cases now : n = m
      · simp [now, hm]
      · simp [later, now, Ne.symm now]

/-- One step for each WR to `TXBUF` that is next: the bytes are written in their order, and nothing else changes. -/
theorem run_txbufWrites (f : Nat → Byte) (rest : List Input) (places : List Nat) (hplaces : ∀ n ∈ places, n < 16)
    (s : State)
    (hp : s.pending = (places.map fun n => packWord true (BitVec.ofNat 8 n) (f n)).map .bus ++ rest) :
    core.run places.length s =
      .next { s with txbuf := places.foldl (fun T n => setByte T n (f n)) s.txbuf, pending := rest } := by
  induction places generalizing s with
  | nil =>
    have inputs : s.pending = rest := hp
    subst inputs
    rfl
  | cons n places ih =>
    obtain ⟨hn, hrest⟩ := List.forall_mem_cons.mp hplaces
    rw [List.length_cons, run_succ _ (step_wr_txbuf hn hp), ih hrest _ rfl]
    rfl

/-- Settles O55: the sixteen WRs write every place of `TXBUF`, each its byte of `B`. -/
theorem ldtxLoadsTheWholeBuffer : Obligations.LdtxLoadsTheWholeBuffer := by
  intro s B rest hp
  have whole : (List.range 16).foldl (fun T n => setByte T n (byteAt B n)) s.txbuf = B :=
    protocolState_ext fun m hm => by rw [byteAt_foldl_setByte _ _ _ hm, if_pos (List.mem_range.mpr hm)]
  have run := run_txbufWrites (byteAt B) rest (List.range 16) (fun n hn => List.mem_range.mp hn) s hp
  rwa [whole] at run

end Sys2Proof.Machine
end

section
/-! SUPPORT. When each step of `FINALIZE` changes nothing, and that a finalized state is such a state
(41_integrity.md R125, R126). -/

namespace Sys2Proof.Machine

/-- Storing a byte that is already there changes nothing. -/
theorem setByte_eq_self {B : ProtocolState} {n : Nat} {v : Byte} (h : byteAt B n = v) : setByte B n v = B := by
  refine protocolState_ext fun m _ => ?_
  rw [byteAt_setByte]
  split
  next same => rw [← same.1, h]
  next => rfl

theorem joinNibbles_hi4_lo4 : ∀ b : Byte, joinNibbles (hi4 b) (lo4 b) = b := by decide

/-- Clearing bit 7 twice is clearing it once. -/
theorem setBitTo_seven_false_idem : ∀ b : Byte, setBitTo (setBitTo b 7 false) 7 false = setBitTo b 7 false := by decide

/-- The XFan step keeps a state whose XFan is clear wherever it is cleared. -/
theorem forceXFan_eq_self {B : ProtocolState}
    (h : fieldOf B fMode ≠ 1 → fieldOf B fMode ≠ 2 → setBitTo (byteAt B 2) 7 false = byteAt B 2) : forceXFan B = B := by
  unfold forceXFan
  split
  next mode => exact setByte_eq_self (h mode.1 mode.2).symm
  next => rfl

theorem writeMarkers_eq_self {B : ProtocolState} (h3 : byteAt B 3 = 0x50#8) (h11 : byteAt B 11 = 0x70#8) :
    writeMarkers B = B := by
  rw [writeMarkers, setByte_eq_self h3, setByte_eq_self h11]

theorem writeMirror_eq_self {B : ProtocolState} (h8 : byteAt B 8 = byteAt B 0) (h9 : byteAt B 9 = byteAt B 1)
    (h10 : byteAt B 10 = byteAt B 2) : writeMirror B = B := by
  simp only [writeMirror, copyByte, setByte_eq_self h8, setByte_eq_self h9, setByte_eq_self h10]

theorem writeSum_eq_self {B : ProtocolState} {o : Nat} (h : hi4 (byteAt B (o + 7)) = checksum B o) :
    writeSum B o = B := by
  rw [writeSum, ← h, joinNibbles_hi4_lo4, setByte_eq_self rfl]

/-- Storing the two checksums changes bytes 7 and 15 only (41_integrity.md R125). -/
theorem byteAt_finalized_of_ne (B : ProtocolState) {n : Nat} (h7 : n ≠ 7) (h15 : n ≠ 15) :
    byteAt (finalized B) n = byteAt (writeMirror (writeMarkers (forceXFan B))) n := by
  simp [finalized, byteAt_writeSum, h7, h15]

/-- `FINALIZE` leaves byte 0, and so the Mode (41_integrity.md R125). -/
theorem fieldOf_finalized_fMode (B : ProtocolState) : fieldOf (finalized B) fMode = fieldOf B fMode := by
  simp [fieldOf, fMode, byteAt_finalized_of_ne, byteAt_writeMirror, byteAt_writeMarkers, byteAt_forceXFan]

/-- The XFan step finds its work done: byte 2 is the one it wrote, and the Mode is the same. -/
theorem forceXFan_finalized (B : ProtocolState) : forceXFan (finalized B) = finalized B := by
  refine forceXFan_eq_self fun cool dry => ?_
  rw [fieldOf_finalized_fMode] at cool dry
  have cleared : byteAt (finalized B) 2 = setBitTo (byteAt B 2) 7 false := by
    simp [byteAt_finalized_of_ne, byteAt_writeMirror, byteAt_writeMarkers, byteAt_forceXFan, cool, dry]
  rw [cleared, setBitTo_seven_false_idem]

theorem writeMarkers_finalized (B : ProtocolState) : writeMarkers (finalized B) = finalized B := by
  apply writeMarkers_eq_self <;> simp [byteAt_finalized_of_ne, byteAt_writeMirror, byteAt_writeMarkers]

theorem writeMirror_finalized (B : ProtocolState) : writeMirror (finalized B) = finalized B := by
  apply writeMirror_eq_self <;> simp [byteAt_finalized_of_ne, byteAt_writeMirror]

/-- A valid state already holds the checksums that `FINALIZE` stores (41_integrity.md R122, R125). -/
theorem writeSum_of_isValid {B : ProtocolState} (h : isValid B = true) : writeSum B 0 = B ∧ writeSum B 8 = B := by
  simp only [isValid, Bool.and_eq_true, beq_iff_eq] at h
  obtain ⟨stored7, stored15⟩ := h
  exact ⟨writeSum_eq_self stored7, writeSum_eq_self stored15⟩

/-- `FINALIZE` of a finalized state: each of its steps, in their order, changes nothing (41_integrity.md R126). -/
theorem finalized_finalized (B : ProtocolState) : finalized (finalized B) = finalized B := by
  obtain ⟨sum0, sum8⟩ := writeSum_of_isValid (isValid_finalized B)
  calc finalized (finalized B)
      = writeSum (writeSum (writeMirror (writeMarkers (forceXFan (finalized B)))) 0) 8 := rfl
    _ = finalized B := by rw [forceXFan_finalized, writeMarkers_finalized, writeMirror_finalized, sum0, sum8]

end Sys2Proof.Machine
end

section
/-! PROOF. The host's transactions: RD, WR, NOP and CLEAR, and the commands that may be repeated (40_host_access.md R101
to R104, 20_memory.md R64). -/

namespace Sys2Proof.Machine

/-- A reserved code raises BadCmd (60_exceptions.md R201). -/
theorem exec_cmdReserved (s : State) {c : Byte} (hc : 8 ≤ c.toNat) : exec (.cmdReserved c) s = .next (raiseBadCmd s) :=
  if_neg (Nat.not_lt.mpr hc)

/-- A second `FINALIZE` changes nothing (41_integrity.md R126). -/
theorem exec_finalize_again (s : State) :
    exec .finalize { s with txbuf := finalized s.txbuf } = .next { s with txbuf := finalized s.txbuf } := by
  simp only [exec, execFinalize, finalized_finalized]

/-- Settles O27: each command writes a value that it does not itself read, but for FINALIZE, whose value is a fixed point
(`finalized_finalized`). -/
theorem repeatedCommandsLeaveOneRunsState : Obligations.RepeatedCommandsLeaveOneRunsState := by
  intro i s hi
  rcases hi with named | ⟨c, hc, rfl⟩
  · simp only [List.mem_cons, List.not_mem_nil, or_false] at named
    rcases named with rfl | rfl | rfl | rfl | rfl | rfl
    · exact ⟨s, rfl, rfl⟩
    · exact ⟨{ s with txbuf := zeroState }, rfl, rfl⟩
    · exact ⟨{ s with csum := checksum s.txbuf 0 }, rfl, rfl⟩
    · exact ⟨{ s with csum := checksum s.txbuf 8 }, rfl, rfl⟩
    · exact ⟨{ s with statusValid := isValid s.txbuf }, rfl, rfl⟩
    · exact ⟨_, rfl, exec_finalize_again s⟩
  · exact ⟨raiseBadCmd s, exec_cmdReserved s hc, exec_cmdReserved _ hc⟩

/-- The byte read at 0x21 as a number (10_state.md R26). -/
theorem statusByte_eq_ofNat (s : State) :
    statusByte s = BitVec.ofNat 8 (4 * s.statusBadcmd.toNat + 2 * s.statusMatch.toNat + s.statusValid.toNat) := by
  have weights : ∀ badcmd matched valid : Bool,
      (BitVec.ofBool badcmd ++ BitVec.ofBool matched ++ BitVec.ofBool valid).setWidth 8 =
        BitVec.ofNat 8 (4 * badcmd.toNat + 2 * matched.toNat + valid.toNat) := by decide
  exact weights s.statusBadcmd s.statusMatch s.statusValid

/-- The byte read at 0x22 as a number (10_state.md R25). -/
theorem csumByte_eq_ofNat (s : State) : csumByte s = BitVec.ofNat 8 s.csum.toNat :=
  (BitVec.ofNat_toNat 8 s.csum).symm

/-- Outside the two buffers only `STATUS` and `CSUM` can read other than 0x00 (20_memory.md R61, R63). -/
theorem readReg_eq_zero (s : State) {a : Byte} (h : 0x1F < a.toNat) (hstatus : a ≠ 0x21#8) (hcsum : a ≠ 0x22#8) :
    readReg s a = 0x00#8 := by
  have cmdOrReserved : a = 0x20#8 ∨ 0x23 ≤ a.toNat := by bv_omega
  rcases cmdOrReserved with rfl | reserved
  · exact readReg_cmd s
  · exact readReg_reserved s a reserved

/-- What every address reads, range by range (40_host_access.md R101). -/
theorem readReg_eq (s : State) (a : Byte) :
    readReg s a =
      if a.toNat ≤ 0x0F then byteAt s.txbuf a.toNat
      else if a.toNat ≤ 0x1F then byteAt s.rxbuf (a.toNat - 0x10)
      else if a = 0x21#8 then
        BitVec.ofNat 8 (4 * s.statusBadcmd.toNat + 2 * s.statusMatch.toNat + s.statusValid.toNat)
      else if a = 0x22#8 then BitVec.ofNat 8 s.csum.toNat
      else 0x00#8 := by
  split_ifs with htx hrx hstatus hcsum
  · exact readReg_txbuf s a htx
  · exact readReg_rxbuf s a (by omega) hrx
  · rw [hstatus, readReg_status, statusByte_eq_ofNat]
  · rw [hcsum, readReg_csum, csumByte_eq_ofNat]
  · exact readReg_eq_zero s (by omega) hstatus hcsum

/-- Settles O9: an RD returns `readReg`, whose value at each address is said above. -/
theorem readReturnsTheRegister : Obligations.ReadReturnsTheRegister := by
  intro a x s
  refine ⟨decode_packWord_read a x, ?_⟩
  rw [exec_rd, readReg_eq]

/-- The acknowledgement as one update of `BADCMD` (60_exceptions.md R205). -/
theorem ackBadCmd_eq (s : State) (d : Byte) :
    ackBadCmd s d = { s with statusBadcmd := if d.getLsbD 2 then false else s.statusBadcmd } := by
  unfold ackBadCmd
  split <;> rfl

/-- Settles O10: the three ranges of a write's address. -/
theorem writeHasItsEffectOnly : Obligations.WriteHasItsEffectOnly := by
  intro a d s hcmd
  refine ⟨decode_packWord_write d hcmd, fun htx => ?_, ?_, fun hlt hstatus => exec_wr_ignored s d hlt hcmd hstatus⟩
  · refine ⟨setByte s.txbuf a.toNat d, ?_, fun n => ?_⟩
    · rw [exec_wr s d hcmd, writeReg, if_pos htx]
    · rw [byteAt_setByte]
      exact if_congr ⟨fun h => h.1.symm, fun h => ⟨h.symm, by omega⟩⟩ rfl rfl
  · rintro rfl
    exact (exec_wr s d hcmd).trans (congrArg _ (ackBadCmd_eq s d))

/-- No address shows the bytes returned to the host (20_memory.md R64; log 2). -/
theorem readReg_returnToHost (s : State) (v : Byte) (b : Byte) : readReg (returnToHost s v) b = readReg s b := rfl

theorem sameKirc_returnToHost (s : State) (v : Byte) : s.SameKirc (returnToHost s v) := by
  simp [State.SameKirc]

/-- Settles O12: an RD adds to the returned bytes alone, which no address shows, so a second one returns the same byte. -/
theorem readsHaveNoSideEffects : Obligations.ReadsHaveNoSideEffects := by
  intro a s
  refine ⟨returnToHost s (readReg s a), rfl, sameKirc_returnToHost s _, rfl, rfl, rfl,
    readReg_returnToHost s _, _, exec_rd _ a, ?_⟩
  rw [readReg_returnToHost, returnToHost_hostReads, List.append_assoc, List.singleton_append]

/-- Settles O13, by the law of a command's word. -/
theorem nopChangesNothing : Obligations.NopChangesNothing :=
  ⟨decode_commandWord 0x00#8, fun _ => rfl⟩

/-- An all zero state is not valid: its checksums are the start value, not the stored zeros (41_integrity.md R120, R122). -/
theorem isValid_zeroState : isValid zeroState = false := by decide

/-- Settles O14: the state CLEAR writes is the same whatever it finds, so a second one finds its work done. -/
theorem clearEmptiesTheTransmitBuffer : Obligations.ClearEmptiesTheTransmitBuffer :=
  ⟨decode_commandWord 0x01#8, fun _ => ⟨zeroState, rfl, fun n _ => byteAt_zeroState n, isValid_zeroState, rfl⟩⟩

end Sys2Proof.Machine
end

section
/-! SUPPORT. Which bits the checksum and validity read, and what one flipped bit does to them (41_integrity.md R120 to
R122, R128, R129). -/

namespace Sys2Proof.Machine

theorem lo4_eq_iff (u v : Byte) : lo4 u = lo4 v ↔ ∀ c < 4, u.getLsbD c = v.getLsbD c := by
  rw [lo4, lo4, BitVec.eq_of_getLsbD_eq_iff]
  refine forall₂_congr fun c hc => ?_
  simp [hc]

theorem hi4_eq_iff (u v : Byte) : hi4 u = hi4 v ↔ ∀ c < 8, 4 ≤ c → u.getLsbD c = v.getLsbD c := by
  simp only [hi4, BitVec.eq_of_getLsbD_eq_iff, BitVec.getLsbD_extractLsb']
  constructor
  · intro h c hc high
    simpa [show c - 4 < 4 by omega, Nat.add_sub_cancel' high] using h (c - 4) (by omega)
  · intro h c hc
    rw [h (4 + c) (by omega) (by omega)]

/-- The nibble of byte `n` that the checksum of its block sums: the low one in the first half of the block, the high one
in the second (41_integrity.md R120). -/
def summedNibble (B : ProtocolState) (n : Nat) : Nibble := if n % 8 < 4 then lo4 (byteAt B n) else hi4 (byteAt B n)

/-- The checksum of a block as a sum of 4-bit words, whose addition is modulo 16 (41_integrity.md R120). -/
theorem checksum_eq_sum (B : ProtocolState) (k : Nat) :
    checksum B (8 * k) = 10#4 + ∑ j ∈ Finset.range 7, summedNibble B (8 * k + j) := by
  have nibbles : ∑ j ∈ Finset.range 7, summedNibble B (8 * k + j) =
      lo4 (byteAt B (8 * k)) + lo4 (byteAt B (8 * k + 1)) + lo4 (byteAt B (8 * k + 2)) + lo4 (byteAt B (8 * k + 3))
        + hi4 (byteAt B (8 * k + 4)) + hi4 (byteAt B (8 * k + 5)) + hi4 (byteAt B (8 * k + 6)) := by
    simp [Finset.sum_range_succ, summedNibble]
  rw [checksum, checksumSum_eq, nibbles]
  bv_omega

/-- Two blocks with the same summed nibbles have the same checksum (41_integrity.md R121). -/
theorem checksum_congr_summed {A B : ProtocolState} {k : Nat}
    (h : ∀ j < 7, summedNibble A (8 * k + j) = summedNibble B (8 * k + j)) :
    checksum A (8 * k) = checksum B (8 * k) := by
  rw [checksum_eq_sum, checksum_eq_sum, Finset.sum_congr rfl fun j hj => h j (Finset.mem_range.mp hj)]

/-- Where at most one summed nibble differs, the checksums are equal exactly when that nibble is: the other summands
cancel (41_integrity.md R128). -/
theorem checksum_eq_iff_of_others {A B : ProtocolState} {k i : Nat} (hi : i < 7)
    (others : ∀ j < 7, j ≠ i → summedNibble A (8 * k + j) = summedNibble B (8 * k + j)) :
    checksum A (8 * k) = checksum B (8 * k) ↔ summedNibble A (8 * k + i) = summedNibble B (8 * k + i) := by
  have mem : i ∈ Finset.range 7 := Finset.mem_range.mpr hi
  have rest : ∑ j ∈ (Finset.range 7).erase i, summedNibble A (8 * k + j) =
      ∑ j ∈ (Finset.range 7).erase i, summedNibble B (8 * k + j) :=
    Finset.sum_congr rfl fun j hj => by
      obtain ⟨ne, inBlock⟩ := Finset.mem_erase.mp hj
      exact others j (Finset.mem_range.mp inBlock) ne
  rw [checksum_eq_sum, checksum_eq_sum, add_right_inj, ← Finset.add_sum_erase _ _ mem, ← Finset.add_sum_erase _ _ mem,
    rest, add_left_inj]

theorem inSummedNibble_iff {n c : Nat} (hn : n < 16) (hc : c < 8) :
    inSummedNibble n c = true ↔ n % 8 < 4 ∧ c < 4 ∨ 4 ≤ n % 8 ∧ n % 8 < 7 ∧ 4 ≤ c := by
  simp [inSummedNibble, hn, hc, and_assoc]

theorem inStoredNibble_iff {n c : Nat} (hc : c < 8) :
    inStoredNibble n c = true ↔ (n = 7 ∨ n = 15) ∧ 4 ≤ c := by
  simp [inStoredNibble, hc]

/-- The summed nibble of a byte is its bits that `inSummedNibble` names (41_integrity.md R121). -/
theorem summedNibble_eq_iff {A B : ProtocolState} {n : Nat} (hn : n < 16) (summed : n % 8 < 7) :
    summedNibble A n = summedNibble B n ↔
      ∀ c < 8, inSummedNibble n c = true → (byteAt A n).getLsbD c = (byteAt B n).getLsbD c := by
  unfold summedNibble
  split
  next low =>
    rw [lo4_eq_iff]
    constructor
    · intro h c hc hsum
      rw [inSummedNibble_iff hn hc] at hsum
      exact h c (by omega)
    · intro h c hc
      exact h c (by omega) ((inSummedNibble_iff hn (by omega)).mpr (by omega))
  next high =>
    rw [hi4_eq_iff]
    refine forall₂_congr fun c hc => imp_congr_left ?_
    rw [inSummedNibble_iff hn hc]
    omega

/-- The stored nibble of a block is the bits of its last byte that `inStoredNibble` names (10_state.md R36). -/
theorem hi4_stored_eq_iff {A B : ProtocolState} {k : Nat} (hk : k < 2) :
    hi4 (byteAt A (8 * k + 7)) = hi4 (byteAt B (8 * k + 7)) ↔
      ∀ c < 8, inStoredNibble (8 * k + 7) c = true →
        (byteAt A (8 * k + 7)).getLsbD c = (byteAt B (8 * k + 7)).getLsbD c := by
  rw [hi4_eq_iff]
  refine forall₂_congr fun c hc => imp_congr_left ?_
  rw [inStoredNibble_iff hc]
  omega

/-- Validity block by block: the stored nibble is the checksum (41_integrity.md R122). -/
theorem isValid_iff (B : ProtocolState) :
    isValid B = true ↔ ∀ k < 2, hi4 (byteAt B (8 * k + 7)) = checksum B (8 * k) := by
  rw [isValid, Bool.and_eq_true, beq_iff_eq, beq_iff_eq]
  constructor
  · rintro ⟨block0, block1⟩ k hk
    interval_cases k
    · exact block0
    · exact block1
  · intro h
    exact ⟨h 0 (by decide), h 1 (by decide)⟩

/-- States that agree in the bits of the summed and the stored nibbles are both valid or both not (41_integrity.md R129). -/
theorem isValid_congr {A B : ProtocolState}
    (h : ∀ n < 16, ∀ b < 8, (inSummedNibble n b || inStoredNibble n b) = true →
      (byteAt A n).getLsbD b = (byteAt B n).getLsbD b) : isValid A = isValid B := by
  have sums : ∀ k < 2, checksum A (8 * k) = checksum B (8 * k) := fun k hk =>
    checksum_congr_summed fun j hj => (summedNibble_eq_iff (by omega) (by omega)).mpr fun c hc hsum =>
      h _ (by omega) c hc (by rw [hsum, Bool.true_or])
  have stored : ∀ k < 2, hi4 (byteAt A (8 * k + 7)) = hi4 (byteAt B (8 * k + 7)) := fun k hk =>
    (hi4_stored_eq_iff hk).mpr fun c hc hst => h _ (by omega) c hc (by rw [hst, Bool.or_true])
  rw [Bool.eq_iff_iff, isValid_iff, isValid_iff]
  exact forall₂_congr fun k hk => by rw [sums k hk, stored k hk]

/-- The flipped bit is the other one, and every other bit of the state is as before. -/
theorem getLsbD_flipBit (B : ProtocolState) {n b : Nat} (hn : n < 16) (hb : b < 8) (m c : Nat) :
    (byteAt (flipBit B n b) m).getLsbD c =
      if m = n ∧ c = b then !(byteAt B n).getLsbD b else (byteAt B m).getLsbD c := by
  have mask : (0x01#8 <<< b).getLsbD c = decide (c = b) := by
    rw [BitVec.getLsbD_shiftLeft, BitVec.getLsbD_one, Bool.eq_iff_iff]
    simp
    omega
  rw [flipBit, byteAt_setByte]
  by_cases here : m = n
  · subst here
    rw [if_pos ⟨rfl, hn⟩, BitVec.getLsbD_xor, mask]
    by_cases bit : c = b <;> simp [bit]
  · rw [if_neg fun e => here e.1.symm, if_neg fun e => here e.1]

/-- A flip leaves a byte's bits under a condition exactly when its own bit is not among them. -/
theorem getLsbD_flipBit_eq_iff (B : ProtocolState) {n b : Nat} (hn : n < 16) (hb : b < 8) (m : Nat) (read : Nat → Bool) :
    (∀ c < 8, read c = true → (byteAt (flipBit B n b) m).getLsbD c = (byteAt B m).getLsbD c) ↔
      ¬ (m = n ∧ read b = true) := by
  constructor
  · rintro h ⟨rfl, hread⟩
    have := h b hb hread
    rw [getLsbD_flipBit B hn hb, if_pos ⟨rfl, rfl⟩] at this
    exact Bool.not_ne_self _ this
  · intro h c hc hread
    rw [getLsbD_flipBit B hn hb, if_neg]
    rintro ⟨rfl, rfl⟩
    exact h ⟨rfl, hread⟩

theorem summedNibble_flipBit_eq_iff (B : ProtocolState) {n b m : Nat} (hn : n < 16) (hb : b < 8) (hm : m < 16)
    (summed : m % 8 < 7) :
    summedNibble (flipBit B n b) m = summedNibble B m ↔ ¬ (m = n ∧ inSummedNibble m b = true) :=
  (summedNibble_eq_iff hm summed).trans (getLsbD_flipBit_eq_iff B hn hb m _)

theorem hi4_stored_flipBit_eq_iff (B : ProtocolState) {n b k : Nat} (hn : n < 16) (hb : b < 8) (hk : k < 2) :
    hi4 (byteAt (flipBit B n b) (8 * k + 7)) = hi4 (byteAt B (8 * k + 7)) ↔
      ¬ (8 * k + 7 = n ∧ inStoredNibble (8 * k + 7) b = true) :=
  (hi4_stored_eq_iff hk).trans (getLsbD_flipBit_eq_iff B hn hb _ _)

/-- A flip changes a block's checksum exactly when its bit lies in a summed nibble of that block (41_integrity.md R128). -/
theorem checksum_flipBit_eq_iff (B : ProtocolState) {n b k : Nat} (hn : n < 16) (hb : b < 8) (hk : k < 2) :
    checksum (flipBit B n b) (8 * k) = checksum B (8 * k) ↔ ¬ (n / 8 = k ∧ inSummedNibble n b = true) := by
  have others : ∀ j < 7, 8 * k + j ≠ n → summedNibble (flipBit B n b) (8 * k + j) = summedNibble B (8 * k + j) :=
    fun j hj ne => (summedNibble_flipBit_eq_iff B hn hb (by omega) (by omega)).mpr fun e => ne e.1
  by_cases region : n / 8 = k ∧ n % 8 < 7
  · obtain ⟨block, place⟩ := region
    have at_n : 8 * k + n % 8 = n := by omega
    rw [checksum_eq_iff_of_others place fun j hj ne => others j hj (by omega), at_n,
      summedNibble_flipBit_eq_iff B hn hb hn place]
    simp [block]
  · refine iff_of_true (checksum_congr_summed fun j hj => others j hj (by omega)) ?_
    rintro ⟨block, hsum⟩
    rw [inSummedNibble_iff hn hb] at hsum
    omega

/-- A valid state with one bit flipped is valid exactly when the bit lies in no summed and in no stored nibble: a summed
one changes the checksum alone, a stored one the stored nibble alone (41_integrity.md R122, R128; log 12). -/
theorem isValid_flipBit {B : ProtocolState} (valid : isValid B = true) {n b : Nat} (hn : n < 16) (hb : b < 8) :
    isValid (flipBit B n b) = !(inSummedNibble n b || inStoredNibble n b) := by
  have block : n / 8 < 2 := by omega
  have before := (isValid_iff B).mp valid (n / 8) block
  cases hread : inSummedNibble n b || inStoredNibble n b with
  | false =>
    refine (isValid_congr fun m hm c hc read => ?_).trans valid
    rw [getLsbD_flipBit B hn hb, if_neg]
    rintro ⟨rfl, rfl⟩
    exact absurd (hread.symm.trans read) (by decide)
  | true =>
    refine Bool.eq_false_iff.mpr fun still => ?_
    have after := (isValid_iff _).mp still (n / 8) block
    rcases Bool.or_eq_true_iff.mp hread with hsum | hst
    · have last : 8 * (n / 8) + 7 ≠ n := by
        rw [inSummedNibble_iff hn hb] at hsum
        omega
      have stored := (hi4_stored_flipBit_eq_iff B hn hb block).mpr fun e => last e.1
      exact (checksum_flipBit_eq_iff B hn hb block).mp (after.symm.trans (stored.trans before)) ⟨rfl, hsum⟩
    · have last : 8 * (n / 8) + 7 = n ∧ ¬ inSummedNibble n b = true := by
        rw [inStoredNibble_iff hb] at hst
        rw [inSummedNibble_iff hn hb]
        omega
      have sum := (checksum_flipBit_eq_iff B hn hb block).mpr fun e => last.2 e.2
      have same := after.trans (sum.trans before.symm)
      exact (hi4_stored_flipBit_eq_iff B hn hb block).mp same ⟨last.1, last.1.symm ▸ hst⟩

end Sys2Proof.Machine
end

section
/-! PROOF. The checksum engine: CSUM0, CSUM1, VALIDATE and FINALIZE (41_integrity.md R120 to R129). -/

namespace Sys2Proof.Machine

/-- Settles O19: the sum nibble by nibble (`checksumSum_eq`) at the two blocks. -/
theorem checksumCommandsStoreTheNibbleSum : Obligations.ChecksumCommandsStoreTheNibbleSum := by
  refine ⟨decode_commandWord 0x02#8, decode_commandWord 0x03#8, fun s => ⟨?_, ?_⟩⟩
  · rw [← checksumSum_eq s.txbuf 0]
    rfl
  · rw [← checksumSum_eq s.txbuf 8]
    rfl

/-- Settles O21: a block's checksum changes exactly when the flip lies in one of its summed nibbles
(`checksum_flipBit_eq_iff`), taken at the bit's own block and at the other. -/
theorem singleBitFlipIsDetectedInSummedNibbles : Obligations.SingleBitFlipIsDetectedInSummedNibbles := by
  intro B n b hn hb
  constructor
  · rw [ne_eq, checksum_flipBit_eq_iff B hn hb (by omega), not_not]
    exact and_iff_right rfl
  · exact (checksum_flipBit_eq_iff B hn hb (by omega)).mpr fun e => by omega

/-- Settles O22: validity is a conjunction of two comparisons. -/
theorem validateStoresValidity : Obligations.ValidateStoresValidity := by
  refine ⟨decode_commandWord 0x04#8, fun s => ?_⟩
  rw [Bool.decide_and, ← beq_eq_decide, ← beq_eq_decide]
  rfl

/-- Settles O24. -/
theorem validityReadsNothingElse : Obligations.ValidityReadsNothingElse := fun _ _ => isValid_congr

/-- Byte 2 after `FINALIZE`: XFan is cleared unless the Mode is 1 or 2 (41_integrity.md R125). -/
theorem byteAt_finalized_two (B : ProtocolState) :
    byteAt (finalized B) 2 = if (byteAt B 0).toNat % 8 = 1 ∨ (byteAt B 0).toNat % 8 = 2 then byteAt B 2
      else byteAt B 2 &&& 0x7F#8 := by
  have mode : fieldOf B fMode = (byteAt B 0).toNat % 8 := by simp [fieldOf, fMode]
  have cleared : setBitTo (byteAt B 2) 7 false = byteAt B 2 &&& 0x7F#8 := rfl
  have kept : byteAt (finalized B) 2 = byteAt (forceXFan B) 2 := by
    simp [byteAt_finalized_of_ne, byteAt_writeMirror, byteAt_writeMarkers]
  rw [kept, byteAt_forceXFan, mode, cleared, ← ite_not]
  exact if_congr (by omega) rfl rfl

/-- `FINALIZE` keeps the bytes that are no marker, no mirror, and hold neither XFan nor a checksum (41_integrity.md R125). -/
theorem byteAt_finalized_of_mem (B : ProtocolState) {n : Nat} (hn : n ∈ [0, 1, 4, 5, 6, 12, 13, 14]) :
    byteAt (finalized B) n = byteAt B n := by
  have places : n ≠ 2 ∧ n ≠ 3 ∧ n ≠ 11 ∧ ¬ (8 ≤ n ∧ n ≤ 10) ∧ n ≠ 7 ∧ n ≠ 15 := by
    revert n
    decide
  obtain ⟨xfan, marker3, marker11, mirror, sum0, sum8⟩ := places
  rw [byteAt_finalized_of_ne B sum0 sum8, byteAt_writeMirror, if_neg mirror, byteAt_writeMarkers, if_neg marker3,
    if_neg marker11, byteAt_forceXFan, if_neg fun e => xfan e.1]

/-- The low nibbles of bytes 7 and 15 are none of `FINALIZE`'s (41_integrity.md R125, D21). -/
theorem lo4_byteAt_finalized (B : ProtocolState) {n : Nat} (hn : n = 7 ∨ n = 15) :
    lo4 (byteAt (finalized B) n) = lo4 (byteAt B n) := by
  rcases hn with rfl | rfl <;>
    simp [finalized, byteAt_writeSum, byteAt_writeMirror, byteAt_writeMarkers, byteAt_forceXFan]

/-- Settles O25. The markers and the mirror hold because `FINALIZE` writes them again without effect
(`writeMarkers_finalized`, `writeMirror_finalized`), the stored nibbles because its result is valid. -/
theorem finalizeWritesItsBytes : Obligations.FinalizeWritesItsBytes := by
  refine ⟨decode_commandWord 0x05#8, fun s => ⟨finalized s.txbuf, rfl, ?_⟩⟩
  have markers : ∀ n, byteAt (writeMarkers (finalized s.txbuf)) n = byteAt (finalized s.txbuf) n := fun n => by
    rw [writeMarkers_finalized]
  have mirror : ∀ n, byteAt (writeMirror (finalized s.txbuf)) n = byteAt (finalized s.txbuf) n := fun n => by
    rw [writeMirror_finalized]
  simp only [byteAt_writeMarkers] at markers
  simp only [byteAt_writeMirror] at mirror
  have stored := (isValid_iff _).mp (isValid_finalized s.txbuf)
  exact ⟨fun n => byteAt_finalized_of_mem s.txbuf, byteAt_finalized_two s.txbuf, (markers 3).symm, (markers 11).symm,
    (mirror 8).symm, (mirror 9).symm, (mirror 10).symm, stored 0 (by decide), lo4_byteAt_finalized s.txbuf (.inl rfl),
    stored 1 (by decide), lo4_byteAt_finalized s.txbuf (.inr rfl), isValid_finalized s.txbuf⟩

/-- Settles O26, by `finalized_finalized` and `isValid_finalized`. -/
theorem finalizeIsIdempotentAndValid : Obligations.FinalizeIsIdempotentAndValid := fun s =>
  ⟨_, rfl, exec_finalize_again s, isValid_finalized s.txbuf⟩

end Sys2Proof.Machine
end

section
/-! SUPPORT. A burst is its framing and its 128 data bits, and what DECODE makes of one (42_pulse_codec.md R163, R166 to
R169, R174). -/

namespace Sys2Proof.Machine

/-- Every place of a message is a data bit's, or holds a framing pair that is the same for all states
(42_pulse_codec.md R163). -/
theorem messagePairs_place_cases (k : Nat) {i : Nat} (hi : i < 70) :
    (∃ j < 8, ∃ b < 8, i = if j < 4 then 1 + 8 * j + b else 37 + 8 * (j - 4) + b) ∨
      ∃ p, ∀ B, (messagePairs B k)[i]? = some p := by
  have parts : (1 ≤ i ∧ i ≤ 32) ∨ (37 ≤ i ∧ i ≤ 68) ∨ i = 0 ∨ i = 33 ∨ i = 34 ∨ i = 35 ∨ i = 36 ∨ i = 69 := by omega
  rcases parts with first | second | rfl | rfl | rfl | rfl | rfl | rfl
  · refine .inl ⟨(i - 1) / 8, by omega, (i - 1) % 8, by omega, ?_⟩
    rw [if_pos (by omega)]
    omega
  · refine .inl ⟨4 + (i - 37) / 8, by omega, (i - 37) % 8, by omega, ?_⟩
    rw [if_neg (by omega)]
    omega
  · exact .inr ⟨headerPair, fun _ => rfl⟩
  · exact .inr ⟨zeroPair, fun _ => rfl⟩
  · exact .inr ⟨onePair, fun _ => rfl⟩
  · exact .inr ⟨zeroPair, fun _ => rfl⟩
  · exact .inr ⟨gapPair, fun _ => rfl⟩
  · exact .inr ⟨terminatingPair k, fun _ => rfl⟩

theorem getElem?_burstPairs (B : ProtocolState) {k i : Nat} (hk : k < 2) (hi : i < 70) :
    (burstPairs B)[70 * k + i]? = (messagePairs B k)[i]? := by
  unfold burstPairs
  interval_cases k
  · rw [Nat.mul_zero, Nat.zero_add, List.getElem?_append_left (by simpa using hi)]
  · rw [List.getElem?_append_right (by simp), length_messagePairs, Nat.mul_one, Nat.add_sub_cancel_left]

/-- Every place of a burst is a data bit's, or holds a framing pair that is the same for all states
(42_pulse_codec.md R161, R163). -/
theorem burstPairs_place_cases {i : Nat} (hi : i < 140) :
    (∃ n < 16, ∃ b < 8, i = dataIndex n b) ∨ ∃ p, ∀ B, (burstPairs B)[i]? = some p := by
  have place : 70 * (i / 70) + i % 70 = i := Nat.div_add_mod i 70
  rcases messagePairs_place_cases (i / 70) (Nat.mod_lt i (by decide)) with ⟨j, hj, b, hb, data⟩ | ⟨p, framing⟩
  · have block : (8 * (i / 70) + j) / 8 = i / 70 ∧ (8 * (i / 70) + j) % 8 = j := by omega
    refine .inl ⟨8 * (i / 70) + j, by omega, b, hb, ?_⟩
    rw [dataIndex, block.1, block.2, ← data, place]
  · exact .inr ⟨p, fun B => by rw [← place, getElem?_burstPairs B (by omega) (Nat.mod_lt i (by decide)), framing]⟩

/-- Different bits have different places (42_pulse_codec.md R160, R161). -/
theorem dataIndex_eq_iff {n b m c : Nat} (hb : b < 8) (hc : c < 8) : dataIndex n b = dataIndex m c ↔ m = n ∧ c = b := by
  unfold dataIndex
  constructor
  · intro h
    have block : n / 8 = m / 8 := by split at h <;> split at h <;> omega
    have byte : n % 8 = m % 8 := by rw [block] at h; split at h <;> split at h <;> omega
    rw [block, byte] at h
    split at h <;> omega
  · rintro ⟨rfl, rfl⟩
    rfl

/-- The two bits' pairs differ (42_pulse_codec.md R160). -/
theorem bitPair_not_ne : ∀ v : Bool, bitPair (!v) ≠ bitPair v := by decide

/-- No framing pair stands at a data bit's place: there the pair depends on the state (42_pulse_codec.md R160). -/
theorem ne_dataIndex_of_framing {i : Nat} {p : PulsePair} (framing : ∀ B, (burstPairs B)[i]? = some p) {n b : Nat}
    (hn : n < 16) (hb : b < 8) : dataIndex n b ≠ i := by
  rintro rfl
  have one := framing (flipBit zeroState n b)
  have zero := framing zeroState
  rw [getElem?_burstPairs_data _ n b hn hb] at one zero
  rw [getLsbD_flipBit zeroState hn hb, if_pos ⟨rfl, rfl⟩] at one
  exact bitPair_not_ne _ (Option.some.inj (one.trans zero.symm))

/-- A burst with one data pair changed into the other bit's is the burst of the state with that bit flipped
(42_pulse_codec.md R173). -/
theorem burstPairs_flipBit (B : ProtocolState) {n b : Nat} (hn : n < 16) (hb : b < 8) :
    burstPairs (flipBit B n b) = (burstPairs B).set (dataIndex n b) (bitPair (!(byteAt B n).getLsbD b)) := by
  refine List.ext_getElem? fun i => ?_
  by_cases hi : i < 140
  · rcases burstPairs_place_cases hi with ⟨m, hm, c, hc, rfl⟩ | ⟨p, framing⟩
    · rw [getElem?_burstPairs_data _ m c hm hc, getLsbD_flipBit B hn hb, List.getElem?_set,
        getElem?_burstPairs_data B m c hm hc, length_burstPairs, if_pos (dataIndex_lt n b hn hb), apply_ite bitPair,
        apply_ite some]
      exact if_congr (dataIndex_eq_iff hb hc).symm rfl rfl
    · rw [List.getElem?_set_ne (ne_dataIndex_of_framing framing hn hb), framing, framing]
  · rw [List.getElem?_eq_none (by simpa using hi), List.getElem?_eq_none (by simpa using hi)]

theorem headBit_of_head? {m : MatchFn} {l : List PulsePair} {o : PulsePair} (h : l.head? = some o) :
    headBit m l = m.accepts onePair o := by
  obtain ⟨rest, rfl⟩ := List.head?_eq_some_iff.mp h
  rfl

/-- The tolerance accepts every pair of a burst against itself, and tells a zero from a one (42_pulse_codec.md R174). -/
structure MatchFn.Separates (m : MatchFn) (ps : List PulsePair) : Prop where
  self : ∀ p ∈ ps, m.accepts p p = true
  zero : m.accepts onePair zeroPair = false

/-- `MATCH_EXACT` is such a tolerance for every burst (42_pulse_codec.md R155). -/
theorem separates_exact (ps : List PulsePair) : MatchFn.exact.Separates ps where
  self p _ := decide_eq_true rfl
  zero := by decide

variable {m : MatchFn} {C : ProtocolState}

/-- Such a tolerance reads a data pair as its bit: the one-space target is tried first (42_pulse_codec.md R166). -/
theorem accepts_onePair_bitPair (sep : m.Separates (burstPairs C)) {n b : Nat} (hn : n < 16) (hb : b < 8) :
    m.accepts onePair (bitPair ((byteAt C n).getLsbD b)) = (byteAt C n).getLsbD b := by
  have emitted := List.mem_of_getElem? (getElem?_burstPairs_data C n b hn hb)
  cases hbit : (byteAt C n).getLsbD b with
  | true =>
    rw [hbit] at emitted
    exact sep.self _ emitted
  | false => exact sep.zero

/-- All 140 pairs of a burst are consumed (42_pulse_codec.md R168). -/
theorem consumedPairs_burstPairs (sep : m.Separates (burstPairs C)) (rest : List PulsePair) :
    consumedPairs m burstTargets (burstPairs C ++ rest) = 140 := by
  refine consumedPairs_of_forall₂ m rest ?_
  have both := (List.forall₂_and_left _ _).mpr ⟨sep.self, burstPairs_mem_targets C⟩
  exact both.imp fun p ts h => List.any_eq_true.mpr ⟨p, h.2, h.1⟩

/-- Each byte of a burst is read back from its place (42_pulse_codec.md R167). -/
theorem byteFrom_burstPairs (sep : m.Separates (burstPairs C)) (rest : List PulsePair) {n : Nat} (hn : n < 16) :
    byteFrom m (burstPairs C ++ rest) (dataIndex n 0) = byteAt C n := by
  refine BitVec.eq_of_getLsbD_eq fun b hb => ?_
  have next : dataIndex n 0 + b = dataIndex n b := by
    unfold dataIndex
    split <;> omega
  have pair : ((burstPairs C ++ rest).drop (dataIndex n b)).head? = some (bitPair ((byteAt C n).getLsbD b)) := by
    rw [List.head?_drop, List.getElem?_append_left (by simpa using dataIndex_lt n b hn hb),
      getElem?_burstPairs_data C n b hn hb]
  rw [getLsbD_byteFrom m _ _ b hb, next, headBit_of_head? pair, accepts_onePair_bitPair sep hn hb]

/-- DECODE of the burst of `C` assembles `C`, and matches exactly when `C` is valid, whatever comes after the burst
(42_pulse_codec.md R169, R174). -/
theorem execDecode_burstPairs {s : State} {rest : List PulsePair} (sep : s.matchFn.Separates (burstPairs C))
    (ahead : s.ahead = burstPairs C ++ rest) :
    execDecode s = .next (if isValid C then commitMatch (s.afterPasses 140 C) else noMatch (s.afterPasses 140 C)) := by
  have consumed : consumedPairs s.matchFn burstTargets s.ahead = 140 := by
    rw [ahead, consumedPairs_burstPairs sep]
  have assembled : (List.range 16).foldl (fun B n => setByte B n (byteFrom s.matchFn s.ahead (dataIndex n 0))) zeroState =
      C := protocolState_ext fun n hn => by
    rw [byteAt_foldl_setByte _ _ _ hn, if_pos (List.mem_range.mpr hn), ahead, byteFrom_burstPairs sep rest hn]
  have passes := (decodeBurst_spec s).1 consumed
  rw [assembled] at passes
  simp only [execDecode, passes, State.afterPasses]

end Sys2Proof.Machine
end

section
/-! PROOF. One flipped data bit of a burst (42_pulse_codec.md R173). -/

namespace Sys2Proof.Machine

/-- Settles O45: the changed burst is that of the flipped state (`burstPairs_flipBit`), which DECODE assembles
(`execDecode_burstPairs`) and finds valid or not by the place of the bit (`isValid_flipBit`). -/
theorem oneFlippedDataBit : Obligations.OneFlippedDataBit := by
  intro s B n b rest hexact valid hn hb ahead
  rw [← burstPairs_flipBit B hn hb] at ahead
  have decoded := execDecode_burstPairs (hexact ▸ separates_exact _) ahead
  rw [isValid_flipBit valid hn hb] at decoded
  refine decoded.trans (congrArg _ ?_)
  cases inSummedNibble n b || inStoredNibble n b <;> rfl

end Sys2Proof.Machine
end

section
/-! SUPPORT. The two calls of the decoder on the next pair, and on none (42_pulse_codec.md R154, R166). -/

namespace Sys2Proof.Machine

variable {s : State}

/-- `Expect` with a pair left: the cursor advances exactly when the pair is accepted (42_pulse_codec.md R154). -/
theorem expect_of_lt (e : PulsePair) (h : s.rxcur < s.rxb.length) :
    expect e s =
      if s.matchFn.accepts e s.rxb[s.rxcur] then (true, { s with rxcur := s.rxcur + 1 }) else (false, s) := by
  simp only [expect, List.getElem?_eq_getElem h]

/-- `Expect` with no pair left does not match (42_pulse_codec.md R154). -/
theorem expect_of_exhausted (e : PulsePair) (h : s.rxb.length ≤ s.rxcur) : expect e s = (false, s) := by
  simp only [expect, List.getElem?_eq_none h]

/-- `DecodeBit` with a pair left: a pair the one-space target rejects is still there for the zero-space target
(42_pulse_codec.md R166). -/
theorem decodeBit_of_lt (h : s.rxcur < s.rxb.length) :
    decodeBit s =
      if s.matchFn.accepts onePair s.rxb[s.rxcur] then (some true, { s with rxcur := s.rxcur + 1 })
      else if s.matchFn.accepts zeroPair s.rxb[s.rxcur] then (some false, { s with rxcur := s.rxcur + 1 })
      else (none, s) := by
  rw [decodeBit, expect_of_lt onePair h]
  cases s.matchFn.accepts onePair s.rxb[s.rxcur] with
  | true => rfl
  | false =>
    simp only [Bool.false_eq_true, if_false, expect_of_lt zeroPair h]
    cases s.matchFn.accepts zeroPair s.rxb[s.rxcur] <;> rfl

/-- `DecodeBit` with no pair left reads nothing (42_pulse_codec.md R166). -/
theorem decodeBit_of_exhausted (h : s.rxb.length ≤ s.rxcur) : decodeBit s = (none, s) := by
  simp only [decodeBit, expect_of_exhausted _ h]

/-- A message with no pair left fails at its header (42_pulse_codec.md R168). -/
theorem decodeMessage_of_exhausted (k : Nat) (h : s.rxb.length ≤ s.rxcur) : decodeMessage k s = (false, s) := by
  simp only [decodeMessage, messagePasses, List.cons_append, runPasses, expect_of_exhausted _ h]

/-- DECODE with no pair left is over before anything is assembled (42_pulse_codec.md R169). -/
theorem execDecode_of_exhausted (h : s.rxb.length ≤ s.rxcur) :
    execDecode s = .next (noMatch { s with rxshadow := zeroState }) := by
  have first : decodeMessage 0 { s with rxshadow := zeroState } = (false, { s with rxshadow := zeroState }) :=
    decodeMessage_of_exhausted 0 h
  simp only [execDecode, decodeBurst, runPasses, first]

end Sys2Proof.Machine
end

section
/-! SUPPORT. DECODE in terms of the declarative reading of the pairs ahead (42_pulse_codec.md R166 to R172). -/

namespace Sys2Proof.Machine

theorem dataIndex_zero_add (n b : Nat) : dataIndex n 0 + b = dataIndex n b := by
  unfold dataIndex
  split <;> omega

/-- The bit at the head of the pairs from a data place on is the bit received there (42_pulse_codec.md R166). -/
theorem headBit_drop_dataIndex (m : MatchFn) (l : List PulsePair) (n b : Nat) :
    headBit m (l.drop (dataIndex n b)) = receivedBit m l n b := by
  unfold receivedBit
  rw [← List.head?_drop]
  cases l.drop (dataIndex n b) <;> rfl

theorem getLsbD_receivedByte (m : MatchFn) (l : List PulsePair) (n : Nat) {b : Nat} (hb : b < 8) :
    (receivedByte m l n).getLsbD b = receivedBit m l n b :=
  foldl_setBitTo _ _ b hb

/-- The byte a pass assembles from its place is the byte received there (42_pulse_codec.md R167). -/
theorem byteFrom_dataIndex (m : MatchFn) (l : List PulsePair) (n : Nat) :
    byteFrom m l (dataIndex n 0) = receivedByte m l n := by
  refine BitVec.eq_of_getLsbD_eq fun b hb => ?_
  rw [getLsbD_byteFrom m l _ b hb, dataIndex_zero_add, headBit_drop_dataIndex, getLsbD_receivedByte m l n hb]

theorem byteAt_receivedState (m : MatchFn) (l : List PulsePair) {n : Nat} (hn : n < 16) :
    byteAt (receivedState m l) n = receivedByte m l n := by
  rw [receivedState, byteAt_foldl_setByte _ _ _ hn, if_pos (List.mem_range.mpr hn)]

/-- The received state depends on the pairs at the data places alone (42_pulse_codec.md R167). -/
theorem receivedState_congr (m : MatchFn) {l l' : List PulsePair} (h : ∀ i < 140, l[i]? = l'[i]?) :
    receivedState m l = receivedState m l' := by
  refine protocolState_ext fun n hn => BitVec.eq_of_getLsbD_eq fun b hb => ?_
  rw [byteAt_receivedState m l hn, byteAt_receivedState m l' hn, getLsbD_receivedByte m l n hb,
    getLsbD_receivedByte m l' n hb, receivedBit, receivedBit, h _ (dataIndex_lt n b hn hb)]

/-- Pairs behind those the targets reach are not looked at (42_pulse_codec.md R172). -/
theorem consumedPairs_append_right (m : MatchFn) (T : List (List PulsePair)) (l extra : List PulsePair)
    (h : T.length ≤ l.length) : consumedPairs m T (l ++ extra) = consumedPairs m T l := by
  induction T generalizing l with
  | nil => simp [consumedPairs]
  | cons ts T ih =>
    cases l with
    | nil => simp at h
    | cons o l => simp only [List.cons_append, consumedPairs, ih l (Nat.le_of_succ_le_succ h)]

variable {s t : State}

/-- DECODE when all 140 pairs are accepted: a match or no match by the validity of what they spell
(42_pulse_codec.md R169). -/
theorem execDecode_of_consumed (h : consumedPairs s.matchFn burstTargets s.ahead = 140) :
    execDecode s = .next (if isValid (receivedState s.matchFn s.ahead) then
      commitMatch (s.afterPasses 140 (receivedState s.matchFn s.ahead))
      else noMatch (s.afterPasses 140 (receivedState s.matchFn s.ahead))) := by
  have passes := (decodeBurst_spec s).1 h
  simp only [byteFrom_dataIndex] at passes
  simp only [execDecode, passes]
  rfl

/-- DECODE when a pair is not accepted: no match, and the cursor at that pair (42_pulse_codec.md R170). -/
theorem execDecode_of_not_consumed (h : consumedPairs s.matchFn burstTargets s.ahead ≠ 140) :
    ∃ sh, execDecode s = .next (noMatch (s.afterPasses (consumedPairs s.matchFn burstTargets s.ahead) sh)) := by
  obtain ⟨sh, passes⟩ := (decodeBurst_spec s).2 h
  exact ⟨sh, by simp only [execDecode, passes, State.afterPasses]⟩

/-- The cursor goes past the pairs consumed, and no further (42_pulse_codec.md R170, R171). -/
theorem execDecode_rxcur (h : execDecode s = .next t) :
    t.rxcur = s.rxcur + consumedPairs s.matchFn burstTargets s.ahead := by
  by_cases whole : consumedPairs s.matchFn burstTargets s.ahead = 140
  · obtain rfl := Host.Outcome.next.inj ((execDecode_of_consumed whole).symm.trans h)
    split <;> simp [whole]
  · obtain ⟨sh, broken⟩ := execDecode_of_not_consumed whole
    obtain rfl := Host.Outcome.next.inj (broken.symm.trans h)
    rfl

/-- What is consumed is there, so the cursor stays in bounds (41_integrity.md R130). -/
theorem execDecode_cursorInBounds (hs : s.CursorInBounds) (h : execDecode s = .next t) : t.CursorInBounds := by
  have rxb : t.rxb = s.rxb := (exec_environment (i := .decode) h).1
  have consumed := consumedPairs_le_right s.matchFn burstTargets s.ahead
  have left : s.ahead.length = s.rxb.length - s.rxcur := List.length_drop
  have bound : s.rxcur ≤ s.rxb.length := hs
  rw [State.CursorInBounds, rxb, execDecode_rxcur h]
  omega

end Sys2Proof.Machine
end

section
/-! PROOF. The calls of the decoder, and what every step keeps (42_pulse_codec.md R154, R155, R166, 41_integrity.md
R130). -/

namespace Sys2Proof.Machine

/-- Settles O37. -/
theorem expectAdvancesOnlyOnAMatch : Obligations.ExpectAdvancesOnlyOnAMatch :=
  fun e _ => ⟨expect_of_lt e, expect_of_exhausted e⟩

/-- Settles O38: the two literal targets are the codec's pairs of a data bit. -/
theorem decodeBitTriesTheOneSpaceFirst : Obligations.DecodeBitTriesTheOneSpaceFirst :=
  fun _ => ⟨decodeBit_of_lt, decodeBit_of_exhausted⟩

/-- An instruction keeps the cursor in bounds: only DECODE moves it (41_integrity.md R130). -/
theorem exec_cursorInBounds {i : Instr} {s t : State} (hs : s.CursorInBounds) (h : exec i s = .next t) :
    t.CursorInBounds := by
  by_cases hdecode : i = .decode
  · subst hdecode
    exact execDecode_cursorInBounds hs h
  · rw [State.CursorInBounds, exec_rxcur_of_ne h hdecode, (exec_environment h).1]
    exact hs

/-- Settles O49: a transaction stays within the pairs there are, the transport sets the cursor to 0 or only adds pairs,
and the rest leaves both. -/
theorem everyStepKeepsTheCursorInBounds : Obligations.EveryStepKeepsTheCursorInBounds := by
  intro s t hs h
  cases step_effect h with
  | bus w rest _ _ he => exact exec_cursorInBounds (s := { s with pending := rest }) hs he
  | receive more rest => exact le_trans hs (by simp)
  | capture | rewind | transportReset => exact Nat.zero_le _
  | wait | take | reset => exact hs

/-- Settles O53: no input has the tolerance for its object. -/
theorem everyStepKeepsTheTolerance : Obligations.EveryStepKeepsTheTolerance := by
  intro s t h
  cases step_effect h with
  | bus w rest _ _ he => exact (exec_environment he).2.1
  | wait | capture | receive | rewind | take | reset | transportReset => rfl

end Sys2Proof.Machine
end

section
/-! PROOF. What ENCODE emits, item by item, and how long it takes (42_pulse_codec.md R160 to R165). -/

namespace Sys2Proof.Machine

@[simp] theorem length_encodedItems (B : ProtocolState) : (encodedItems B).length = 141 := by simp [encodedItems]

/-- Item `j + 1` is pair `j` (42_pulse_codec.md R164). -/
theorem getElem?_encodedItems (B : ProtocolState) (j : Nat) :
    (encodedItems B)[1 + j]? = (burstPairs B)[j]?.map .pair := by
  rw [Nat.add_comm, encodedItems, List.getElem?_cons_succ, List.getElem?_map]

/-- The item of place `i` of message `k` (42_pulse_codec.md R161, R164). -/
theorem getElem?_encodedItems_message (B : ProtocolState) {k i : Nat} (hk : k < 2) (hi : i < 70) :
    (encodedItems B)[i + 1 + 70 * k]? = (messagePairs B k)[i]?.map .pair := by
  rw [← getElem?_burstPairs B hk hi, ← getElem?_encodedItems]
  congr 1
  omega

/-- The mark of a data pair does not depend on the bit (42_pulse_codec.md R160). -/
theorem bitPair_eq (v : Bool) : bitPair v = ⟨680#16, if v then 1530#16 else 510#16⟩ := by
  cases v <;> rfl

/-- Settles O34: the framing pairs by their place in the message, the data pairs by `getElem?_burstPairs_data`. -/
theorem encodeAppendsTheMessageTable : Obligations.EncodeAppendsTheMessageTable := by
  refine ⟨rfl, fun s => ⟨encodedItems s.txbuf, execEncode_eq s, length_encodedItems _, rfl, fun k hk => ?_,
    getElem?_encodedItems_message s.txbuf (k := 0) (i := 69) (by decide) (by decide),
    getElem?_encodedItems_message s.txbuf (k := 1) (i := 69) (by decide) (by decide), fun n hn b hb => ?_⟩⟩
  · have place {i : Nat} := getElem?_encodedItems_message s.txbuf (i := i) hk
    exact ⟨place (i := 0) (by decide), place (i := 33) (by decide), place (i := 34) (by decide),
      place (i := 35) (by decide), place (i := 36) (by decide)⟩
  · rw [getElem?_encodedItems, getElem?_burstPairs_data _ n b hn hb, bitPair_eq, Option.map_some]

/-- The marks of a byte are those of its bits, whatever their values (42_pulse_codec.md R160). -/
theorem map_markUs_bytePairs (v : Byte) : (bytePairs v).map PulsePair.markUs = List.replicate 8 680#16 := by
  simp only [bytePairs, List.map_map, Function.comp_def, bitPair_eq, List.map_const', List.length_range]

/-- A message's marks are the header's and 69 of a bit's length (42_pulse_codec.md R163). -/
theorem map_markUs_messagePairs (B : ProtocolState) (k : Nat) :
    (messagePairs B k).map PulsePair.markUs = 9010#16 :: List.replicate 69 680#16 := by
  have last : (terminatingPair k).markUs = 680#16 := by
    unfold terminatingPair
    split <;> rfl
  simp only [messagePairs_eq, List.map_append, map_markUs_bytePairs, List.map_cons, List.map_nil, last]
  rfl

/-- How many pairs of a burst have a given mark (42_pulse_codec.md R165). -/
theorem countP_markUs_burstPairs (B : ProtocolState) (c : Micros) :
    (burstPairs B).countP (fun p => p.markUs == c) =
      2 * (9010#16 :: List.replicate 69 680#16).count c := by
  have marks : (burstPairs B).countP (fun p => p.markUs == c) = ((burstPairs B).map PulsePair.markUs).count c := by
    rw [List.count, List.countP_map]
    rfl
  rw [marks, burstPairs, List.map_append, map_markUs_messagePairs, map_markUs_messagePairs, List.count_append, two_mul]

/-- Counting the items of an ENCODE: the carrier, then the pairs. -/
theorem length_filter_encodedItems (f : TxItem → Bool) (B : ProtocolState) :
    ((encodedItems B).filter f).length =
      (if f (.carrier carrierHz) then 1 else 0) + (burstPairs B).countP fun p => f (.pair p) := by
  rw [← List.countP_eq_length_filter, encodedItems, List.countP_cons, List.countP_map, Nat.add_comm]
  rfl

theorem totalUs_append (L M : List TxItem) : totalUs (L ++ M) = totalUs L + totalUs M := by
  simp [totalUs]

theorem totalUs_cons (item : TxItem) (L : List TxItem) : totalUs (item :: L) = item.durationUs + totalUs L := by
  simp [totalUs]

/-- The duration of data pairs: 1190 µs for each bit, and 1020 more for each that is 1 (42_pulse_codec.md R165). -/
theorem totalUs_map_bitPair (f : Nat → Bool) (bits : List Nat) :
    totalUs ((bits.map fun i => bitPair (f i)).map .pair) = 1190 * bits.length + 1020 * (bits.filter f).length := by
  have bit : ∀ v, (TxItem.pair (bitPair v)).durationUs = 1190 + 1020 * v.toNat := by decide
  induction bits with
  | nil => rfl
  | cons i bits ih =>
    rw [List.map_cons, List.map_cons, totalUs_cons, ih, bit]
    cases hf : f i <;> simp [hf] <;> omega

/-- How many bits of a byte are 1. -/
def oneBitsOf (v : Byte) : Nat := ((List.range 8).filter fun b => v.getLsbD b).length

theorem oneBits_eq_sum (B : ProtocolState) : oneBits B = ((List.range 16).map fun n => oneBitsOf (byteAt B n)).sum := rfl

theorem totalUs_bytePairs (v : Byte) : totalUs ((bytePairs v).map .pair) = 9520 + 1020 * oneBitsOf v :=
  totalUs_map_bitPair v.getLsbD (List.range 8)

/-- The 1 bits of a state, at most all 128. -/
theorem oneBits_le (B : ProtocolState) : oneBits B ≤ 128 := by
  rw [oneBits_eq_sum]
  refine List.sum_le_card_nsmul _ 8 fun ones mem => ?_
  obtain ⟨n, -, rfl⟩ := List.mem_map.mp mem
  exact List.length_filter_le _ _

/-- The duration of a message: its framing, its 64 data pairs and its 1 bits (42_pulse_codec.md R163, R165). -/
theorem totalUs_messagePairs (B : ProtocolState) (k : Nat) :
    totalUs ((messagePairs B k).map .pair) = 114920 + (TxItem.pair (terminatingPair k)).durationUs +
      1020 * ((List.range 8).map fun j => oneBitsOf (byteAt B (8 * k + j))).sum := by
  have range : List.range 8 = [0, 1, 2, 3, 4, 5, 6, 7] := rfl
  have header : totalUs [.pair headerPair] = 13515 := rfl
  have footer : totalUs [.pair zeroPair, .pair onePair, .pair zeroPair, .pair gapPair] = 25245 := rfl
  have last : totalUs [.pair (terminatingPair k)] = (TxItem.pair (terminatingPair k)).durationUs := rfl
  simp only [messagePairs_eq, List.map_append, totalUs_append, totalUs_bytePairs, List.map_cons, List.map_nil, header,
    footer, last, range, List.sum_cons, List.sum_nil, Nat.add_zero]
  omega

/-- The duration of an ENCODE (42_pulse_codec.md R165). -/
theorem totalUs_encodedItems (B : ProtocolState) : totalUs (encodedItems B) = 291125 + 1020 * oneBits B := by
  have parts : totalUs (encodedItems B) =
      totalUs ((messagePairs B 0).map .pair) + totalUs ((messagePairs B 1).map .pair) := by
    rw [encodedItems, burstPairs, List.map_append, totalUs_cons, totalUs_append, TxItem.durationUs, Nat.zero_add]
  have gap : (TxItem.pair (terminatingPair 0)).durationUs = 20655 := rfl
  have gap2 : (TxItem.pair (terminatingPair 1)).durationUs = 40630 := rfl
  have bits : oneBits B = ((List.range 8).map fun j => oneBitsOf (byteAt B (8 * 0 + j))).sum +
      ((List.range 8).map fun j => oneBitsOf (byteAt B (8 * 1 + j))).sum := by
    rw [oneBits_eq_sum, ← List.sum_append]
    rfl
  rw [parts, totalUs_messagePairs, totalUs_messagePairs, gap, gap2, bits]
  omega

/-- Settles O35: the counts by the marks of a message, the duration by its parts. -/
theorem encodeCountsAndDuration : Obligations.EncodeCountsAndDuration := by
  intro s
  have total := totalUs_encodedItems s.txbuf
  have ones := oneBits_le s.txbuf
  refine ⟨encodedItems s.txbuf, execEncode_eq s, length_encodedItems _, ?_, ?_, ?_, total, by omega, by omega⟩
  · rw [length_filter_encodedItems]
    simp
  · rw [length_filter_encodedItems]
    exact (Nat.zero_add _).trans (countP_markUs_burstPairs _ _)
  · rw [length_filter_encodedItems]
    exact (Nat.zero_add _).trans (countP_markUs_burstPairs _ _)

end Sys2Proof.Machine
end

section
/-! PROOF. DECODE against the declarative decoder, and what its outcomes leave (42_pulse_codec.md R169 to R172). -/

namespace Sys2Proof.Machine

/-- Settles O39: both outcomes of a burst consumed whole, and the one of a burst that is not. -/
theorem decodeIsTheDeclarativeDecoder : Obligations.DecodeIsTheDeclarativeDecoder := by
  intro s
  constructor
  · intro whole
    refine (execDecode_of_consumed whole).trans (congrArg _ ?_)
    generalize receivedState s.matchFn s.ahead = assembled
    cases isValid assembled <;> rfl
  · exact execDecode_of_not_consumed

theorem execDecode_completes (s : State) : ∃ t, execDecode s = .next t := by
  rcases execDecode_cases s with ⟨sh, _, he⟩ | ⟨n, _, sh, he⟩ <;> exact ⟨_, he⟩

/-- DECODE sets `MATCH` exactly when all 140 pairs are accepted and spell a valid state (42_pulse_codec.md R169). -/
theorem execDecode_statusMatch {s t : State} (h : execDecode s = .next t) :
    t.statusMatch = true ↔ consumedPairs s.matchFn burstTargets s.ahead = 140 ∧ isValid t.rxshadow = true := by
  by_cases whole : consumedPairs s.matchFn burstTargets s.ahead = 140
  · obtain rfl := Host.Outcome.next.inj ((execDecode_of_consumed whole).symm.trans h)
    cases hv : isValid (receivedState s.matchFn s.ahead) <;> simp [whole, hv]
  · obtain ⟨sh, broken⟩ := execDecode_of_not_consumed whole
    obtain rfl := Host.Outcome.next.inj (broken.symm.trans h)
    simp [whole]

theorem length_burstTargets : burstTargets.length = 140 := by simp [burstTargets, messageTargets]

/-- Every place of a burst has a target (42_pulse_codec.md R168). -/
theorem ne_nil_of_mem_burstTargets {targets : List PulsePair} (h : targets ∈ burstTargets) : targets ≠ [] := by
  simp only [burstTargets, messageTargets, List.mem_append, List.mem_cons, List.mem_replicate, List.not_mem_nil,
    or_false] at h
  rintro rfl
  simp at h

/-- Settles O40: `RXBUF` from `exec_rxbuf`, the cursor from `execDecode_rxcur`, and the pair it stops at from
`consumedPairs_rejects`. -/
theorem decodeOutcomeIsMatchOrNoMatch : Obligations.DecodeOutcomeIsMatchOrNoMatch := by
  intro s hs
  obtain ⟨t, ht⟩ := execDecode_completes s
  have rxb : t.rxb = s.rxb := (exec_environment (i := .decode) ht).1
  have rxbuf := exec_rxbuf (i := .decode) ht
  have rxcur := execDecode_rxcur ht
  have bounds := exec_rxcur_bounds (i := .decode) ht
  refine ⟨t, ht, rxb, fun matched => ?_, fun unmatched => ?_⟩
  · obtain ⟨whole, valid⟩ := (execDecode_statusMatch ht).mp matched
    rw [if_pos ⟨rfl, matched⟩] at rxbuf
    exact ⟨by rw [rxbuf, valid], rxbuf, by rw [rxcur, whole]⟩
  · rw [if_neg (by simp [unmatched])] at rxbuf
    refine ⟨rxbuf, bounds.1, bounds.2, execDecode_cursorInBounds hs ht, fun short o ho => ?_⟩
    have broken : consumedPairs s.matchFn burstTargets s.ahead ≠ burstTargets.length := by
      rw [length_burstTargets]
      omega
    rw [rxb, rxcur, ← List.getElem?_drop] at ho
    obtain ⟨targets, place, rejected⟩ := consumedPairs_rejects _ _ _ broken o ho
    rw [rxcur, Nat.add_sub_cancel_left]
    exact ⟨targets, place, ne_nil_of_mem_burstTargets (List.mem_of_getElem? place), rejected⟩

/-- Pairs added at the end of `RXB` come after those ahead, when there are any ahead (42_pulse_codec.md R154). -/
theorem ahead_append {s : State} (h : s.rxcur ≤ s.rxb.length) (extra : List PulsePair) :
    State.ahead { s with rxb := s.rxb ++ extra } = s.ahead ++ extra :=
  List.drop_append_of_le_length h

/-- Settles O41: with 140 pairs ahead, neither what is consumed nor what is received depends on the pairs behind them. -/
theorem trailingPairsAreNotExamined : Obligations.TrailingPairsAreNotExamined := by
  intro s extra enough
  have inBounds : s.rxcur ≤ s.rxb.length := by
    rw [State.ahead, List.length_drop] at enough
    omega
  have ahead := ahead_append inBounds extra
  have consumed := consumedPairs_append_right s.matchFn burstTargets s.ahead extra enough
  have received : receivedState s.matchFn (s.ahead ++ extra) = receivedState s.matchFn s.ahead :=
    receivedState_congr _ fun i hi => List.getElem?_append_left (by omega)
  by_cases whole : consumedPairs s.matchFn burstTargets s.ahead = 140
  · have longer := execDecode_of_consumed (s := { s with rxb := s.rxb ++ extra }) (by rw [ahead, consumed, whole])
    rw [ahead, received] at longer
    refine ⟨_, receivedState s.matchFn s.ahead, execDecode_of_consumed whole, longer.trans (congrArg _ ?_), fun _ => ?_⟩ <;>
      cases isValid (receivedState s.matchFn s.ahead) <;> rfl
  · obtain ⟨sh, shorter⟩ := execDecode_of_not_consumed whole
    obtain ⟨sh', longer⟩ := execDecode_of_not_consumed (s := { s with rxb := s.rxb ++ extra })
      (by rw [ahead, consumed]; exact whole)
    rw [ahead, consumed] at longer
    exact ⟨_, sh', shorter, longer, fun matched => absurd matched Bool.false_ne_true⟩

/-- Settles O42: the buffer assembled so far is the empty one (`execDecode_of_exhausted`). -/
theorem decodeOfAnExhaustedBufferIsNoMatch : Obligations.DecodeOfAnExhaustedBufferIsNoMatch :=
  fun _ h => ⟨zeroState, execDecode_of_exhausted h, fun n _ => byteAt_zeroState n⟩

end Sys2Proof.Machine
end

section
/-! PROOF. DECODE of what ENCODE emitted, whole and with one wrong pair (42_pulse_codec.md R171, R173, R174). -/

namespace Sys2Proof.Machine

/-- Settles O43: the pairs emitted are the burst of `TXBUF` (`execEncode_eq`), which such a tolerance reads back
(`execDecode_burstPairs`). -/
theorem encodedStateDecodesToItself : Obligations.EncodedStateDecodesToItself := by
  intro s₀ t₀ s ps rest encoded queue ahead self zero
  have burst : ps = burstPairs s₀.txbuf := by
    obtain rfl := Host.Outcome.next.inj ((execEncode_eq s₀).symm.trans encoded)
    have pairs := (List.cons.inj (List.append_cancel_left queue)).2
    exact (List.map_injective_iff.mpr (fun _ _ => TxItem.pair.inj) pairs).symm
  subst burst
  have decoded := execDecode_burstPairs ⟨self, zero⟩ ahead
  constructor <;> intro valid <;> rw [valid] at decoded <;> exact decoded

/-- A changed burst is consumed up to the changed pair, when no target of its place accepts it (42_pulse_codec.md R171). -/
theorem consumedPairs_set_burstPairs {m : MatchFn} {B : ProtocolState} {i : Nat} {p : PulsePair}
    {targets : List PulsePair} (sep : m.Separates (burstPairs B)) (place : burstTargets[i]? = some targets)
    (rejected : targets.any (fun e => m.accepts e p) = false) (rest : List PulsePair) :
    consumedPairs m burstTargets ((burstPairs B).set i p ++ rest) = i := by
  obtain ⟨hi, rfl⟩ := List.getElem?_eq_some_iff.mp place
  have hi' : i < (burstPairs B).length := hi.trans_eq (burstPairs_mem_targets B).length_eq.symm
  have both := (List.forall₂_and_left _ _).mpr ⟨sep.self, burstPairs_mem_targets B⟩
  have accepted : List.Forall₂ (fun p ts => ts.any (fun e => m.accepts e p) = true) (burstPairs B) burstTargets :=
    both.imp fun p ts h => List.any_eq_true.mpr ⟨p, h.2, h.1⟩
  have before := List.forall₂_take i accepted
  have stop := consumedPairs_stop m _ (burstTargets.drop (i + 1)) p ((burstPairs B).drop (i + 1) ++ rest) before rejected
  rw [List.getElem_cons_drop, List.take_append_drop, List.length_take_of_le hi.le] at stop
  rw [List.set_eq_take_append_cons_drop, if_pos hi', List.append_assoc, List.cons_append]
  exact stop

/-- Under `MATCH_EXACT` the targets of a place accept their own pairs alone (42_pulse_codec.md R155). -/
theorem any_accepts_exact_of_notMem {targets : List PulsePair} {p : PulsePair} (h : p ∉ targets) :
    targets.any (fun e => MatchFn.exact.accepts e p) = false := by
  refine List.any_eq_false.mpr fun e he accepted => h ?_
  have same : e = p := of_decide_eq_true accepted
  exact same ▸ he

/-- Under `MATCH_EXACT` a burst with a pair that is no target of its place gives a no match that stops at it
(42_pulse_codec.md R171, R173). -/
theorem execDecode_of_wrongPair {s : State} {B : ProtocolState} {i : Nat} {p : PulsePair} {rest : List PulsePair}
    {targets : List PulsePair} (hexact : s.matchFn = .exact) (ahead : s.ahead = (burstPairs B).set i p ++ rest)
    (place : burstTargets[i]? = some targets) (wrong : p ∉ targets) :
    ∃ sh, execDecode s = .next (noMatch (s.afterPasses i sh)) := by
  have consumed : consumedPairs s.matchFn burstTargets s.ahead = i := by
    rw [ahead, hexact]
    exact consumedPairs_set_burstPairs (separates_exact _) place (any_accepts_exact_of_notMem wrong) rest
  have hi : i < 140 := (List.getElem?_eq_some_iff.mp place).1
  simpa only [consumed] using execDecode_of_not_consumed (s := s) (by omega)

theorem getElem?_burstTargets {k i : Nat} (hk : k < 2) (hi : i < 70) :
    burstTargets[70 * k + i]? = (messageTargets k)[i]? := by
  have len : ∀ k, (messageTargets k).length = 70 := fun _ => rfl
  unfold burstTargets
  interval_cases k
  · rw [Nat.mul_zero, Nat.zero_add, List.getElem?_append_left (by rwa [len])]
  · rw [List.getElem?_append_right (by rw [len]; omega), len, Nat.mul_one, Nat.add_sub_cancel_left]

/-- At each framing place of a message there is one target (42_pulse_codec.md R168). -/
theorem messageTargets_framing (k : Nat) {i : Nat} (h : i = 0 ∨ (33 ≤ i ∧ i ≤ 36) ∨ i = 69) :
    ∃ e, (messageTargets k)[i]? = some [e] := by
  have places : i = 0 ∨ i = 33 ∨ i = 34 ∨ i = 35 ∨ i = 36 ∨ i = 69 := by omega
  rcases places with rfl | rfl | rfl | rfl | rfl | rfl <;> exact ⟨_, rfl⟩

theorem getElem?_append_replicate_append {α : Type} (before after : List α) (x : α) {n i : Nat}
    (lo : before.length ≤ i) (hi : i < before.length + n) :
    (before ++ (List.replicate n x ++ after))[i]? = some x := by
  rw [List.getElem?_append_right lo, List.getElem?_append_left (by rw [List.length_replicate]; omega),
    List.getElem?_replicate_of_lt (by omega)]

/-- At each data place of a message there are the two bits' targets (42_pulse_codec.md R166, R168). -/
theorem messageTargets_data (k : Nat) {i : Nat} (h : (1 ≤ i ∧ i ≤ 32) ∨ (37 ≤ i ∧ i ≤ 68)) :
    (messageTargets k)[i]? = some [onePair, zeroPair] := by
  rcases h with ⟨lo, hi⟩ | ⟨lo, hi⟩
  · rw [messageTargets, List.append_assoc, List.append_assoc, List.append_assoc]
    exact getElem?_append_replicate_append _ _ _ lo (by simp; omega)
  · rw [messageTargets, List.append_assoc]
    exact getElem?_append_replicate_append _ _ _ (by simpa using lo) (by simp; omega)

/-- At a framing place the one target is the burst's own pair (42_pulse_codec.md R163, R168). -/
theorem eq_of_burstTargets_singleton {B : ProtocolState} {i : Nat} {e : PulsePair} (h : burstTargets[i]? = some [e]) :
    (burstPairs B)[i]? = some e := by
  obtain ⟨hi, target⟩ := List.getElem?_eq_some_iff.mp h
  have hi' : i < (burstPairs B).length := hi.trans_eq (burstPairs_mem_targets B).length_eq.symm
  have mem := (burstPairs_mem_targets B).get hi' hi
  simp only [List.get_eq_getElem, target, List.mem_singleton] at mem
  rw [List.getElem?_eq_getElem hi', mem]

/-- Settles O44: the changed pair is no target of its place, at the framing because the one target is the pair that stood
there. -/
theorem oneWrongPairGivesNoMatch : Obligations.OneWrongPairGivesNoMatch := by
  intro s B i p rest hexact hi ahead
  have targets : burstTargets[i]? = (messageTargets (i / 70))[i % 70]? := by
    rw [← getElem?_burstTargets (by omega) (Nat.mod_lt i (by decide)), Nat.div_add_mod]
  constructor
  · intro framing changed
    obtain ⟨e, place⟩ := messageTargets_framing (i / 70) framing
    rw [← targets] at place
    refine execDecode_of_wrongPair hexact ahead place fun mem => changed ?_
    rw [List.mem_singleton.mp mem, eq_of_burstTargets_singleton place]
  · intro data one zero
    have place := targets.trans (messageTargets_data (i / 70) data)
    refine execDecode_of_wrongPair hexact ahead place fun mem => ?_
    rcases List.mem_pair.mp mem with rfl | rfl
    · exact one rfl
    · exact zero rfl

end Sys2Proof.Machine
end

section
/-! PROOF. BadCmd, and that nothing stops KIRC (60_exceptions.md R200, R201, R204). -/

namespace Sys2Proof.Machine

/-- An instruction that stands for a bus word answers a next state: the two refusals are of terms that stand for none
(60_exceptions.md R200, log 11). -/
theorem exec_completes {i : Instr} (hi : i.wellFormed = true) (s : State) : ∃ t, exec i s = .next t := by
  cases i with
  | cmdReserved c => exact ⟨_, exec_cmdReserved s (of_decide_eq_true hi)⟩
  | wr a d => exact ⟨_, exec_wr s d (of_decide_eq_true hi)⟩
  | rd a => exact ⟨_, exec_rd s a⟩
  | decode => exact execDecode_completes s
  | nop | clear | csum0 | csum1 | validate | finalize | encode => exact ⟨_, rfl⟩

/-- Settles O7: a bus word decodes to an instruction that stands for it (`wellFormed_decode`), and every other input has
its next state outright. -/
theorem noStepStopsTheMachine : Obligations.NoStepStopsTheMachine := by
  intro s
  cases hp : s.pending with
  | nil => exact ⟨s, by rw [step, hp]⟩
  | cons input rest =>
    cases input with
    | bus w =>
      rw [step_bus hp]
      exact exec_completes (wellFormed_decode w) _
    | capture | receive | rewind | take | reset | transportReset =>
      rw [step, hp]
      exact ⟨_, rfl⟩

/-- Settles O28: the word is the command word of a reserved code, and `raiseBadCmd` writes the one flag. -/
theorem reservedCodeRaisesBadCmd : Obligations.ReservedCodeRaisesBadCmd :=
  fun c s hc => ⟨(decode_commandWord c).trans (commandOf_reserved c hc), exec_cmdReserved s hc⟩

end Sys2Proof.Machine
end

section
/-! SUPPORT. What a step does with each act of the transport and with nothing pending, said once
(`step_bus` and `step_reset` stand above). -/

namespace Sys2Proof.Machine

variable {s : State} {rest : List Input}

/-- The step with nothing pending is a wait (70_reset_and_hazards.md R230; log 9). -/
theorem step_nothingPending (h : s.pending = []) : step s = .next s := by
  simp only [step, h]

theorem step_capture {burst : List PulsePair} (h : s.pending = .capture burst :: rest) :
    step s = .next (captureBurst { s with pending := rest } burst) := by
  simp only [step, h]

theorem step_receive {more : List PulsePair} (h : s.pending = .receive more :: rest) :
    step s = .next (receiveMore { s with pending := rest } more) := by
  simp only [step, h]

theorem step_rewind (h : s.pending = .rewind :: rest) : step s = .next (rewindCursor { s with pending := rest }) := by
  simp only [step, h]

theorem step_take {n : Nat} (h : s.pending = .take n :: rest) :
    step s = .next (takeItems { s with pending := rest } n) := by
  simp only [step, h]

theorem step_transportReset {burst : List PulsePair} (h : s.pending = .transportReset burst :: rest) :
    step s = .next (resetTransport { s with pending := rest } burst) := by
  simp only [step, h]

/-- The reset event written from the reset state: what is not KIRC's own is put back (10_state.md R39; log 18). -/
theorem resetKirc_eq (s : State) :
    resetKirc s = { State.reset with
      txq := s.txq, rxb := s.rxb, rxcur := s.rxcur, matchFn := s.matchFn, hostReads := s.hostReads,
      pending := s.pending } := rfl

end Sys2Proof.Machine
end

section
/-! PROOF. Which instructions read `RXBUF` (92_eei_decisions.md D36): none but RD. -/

namespace Sys2Proof.Machine

theorem writeReg_withRxbuf (s : State) (a d : Byte) (R : ProtocolState) :
    writeReg { s with rxbuf := R } a d = { writeReg s a d with rxbuf := R } := by
  simp only [writeReg, ackBadCmd]
  split_ifs <;> rfl

/-- `DECODE` does the same whatever `RXBUF` holds, and leaves it unless a match overwrites it (10_state.md R23). -/
theorem execDecode_withRxbuf {s t : State} (h : execDecode s = .next t) (R : ProtocolState) :
    execDecode { s with rxbuf := R } = .next { t with rxbuf := if t.statusMatch then t.rxbuf else R } := by
  have others := execDecode_withOthers h s.txbuf R s.txq s.csum s.statusValid s.statusBadcmd
  have kept : t.txbuf = s.txbuf ∧ t.txq = s.txq ∧ t.csum = s.csum ∧ t.statusValid = s.statusValid ∧
      t.statusBadcmd = s.statusBadcmd := by
    cases exec_effect (i := .decode) h <;> simp
  obtain ⟨htx, htxq, hcsum, hvalid, hbadcmd⟩ := kept
  simpa only [State.withOthers, htx, htxq, hcsum, hvalid, hbadcmd] using others

/-- No instruction but RD and DECODE reads or writes `RXBUF`: with another one it does the same and keeps that one. -/
theorem exec_withRxbuf_of_ne {i : Instr} {s t : State} (h : exec i s = .next t) (hrd : ∀ a : Byte, i ≠ .rd a)
    (hdecode : i ≠ .decode) (R : ProtocolState) : exec i { s with rxbuf := R } = .next { t with rxbuf := R } := by
  cases exec_effect h with
  | rd a => exact absurd rfl (hrd a)
  | decodeMatch | decodeNoMatch => exact absurd rfl hdecode
  | encode => exact execEncode_eq { s with rxbuf := R }
  | cmdReserved c hc => exact exec_cmdReserved { s with rxbuf := R } hc
  | wr a d ha => rw [exec_wr _ d ha, writeReg_withRxbuf]
  | nop | clear | csum0 | csum1 | validate | finalize => rfl

/-- Settles O32: DECODE is `execDecode_withRxbuf`, and every other command leaves `RXBUF` unread and unwritten. -/
theorem commandsDoNotReadTheReceiveBuffer : Obligations.CommandsDoNotReadTheReceiveBuffer := by
  intro i s t R hrd h
  by_cases hdecode : i = .decode
  · subst hdecode
    exact ⟨_, execDecode_withRxbuf h R, rfl⟩
  · exact ⟨_, exec_withRxbuf_of_ne h hrd hdecode R, rfl⟩

end Sys2Proof.Machine
end

section
/-! PROOF. Bus words and the terms that stand for none (20_memory.md R62, 30_encoding.md R80 to R86; log 11). -/

namespace Sys2Proof.Machine

/-- Settles O1: `step_bus` at the decoded instruction; it holds of every word, for every word decodes to a well-formed
instruction (`wellFormed_decode`). -/
theorem stepRunsTheDecodedTransaction : Obligations.StepRunsTheDecodedTransaction := by
  rintro s w rest _ hp rfl _
  exact step_bus hp

/-- Settles O5: the two sides of the decoder's one test. -/
theorem onlyBusWordsDecode : Obligations.OnlyBusWordsDecode :=
  fun _ => ⟨fun wide => if_neg (Nat.not_lt.mpr wide), fun fits => if_pos fits⟩

/-- A WR of the address of `CMD` stands for no word (40_host_access.md R102; log 11). -/
theorem exec_wr_cmd (d : Byte) (s : State) : exec (.wr 0x20#8 d) s = .refused (.illFormed "WR") := by
  rw [exec, execWr, if_pos rfl]

/-- A code below 0x08 is another command's (30_encoding.md R83; log 11). -/
theorem exec_cmdReserved_of_lt {c : Byte} (hc : c.toNat < 8) (s : State) :
    exec (.cmdReserved c) s = .refused (.illFormed "CMD_RESERVED") :=
  if_pos hc

/-- Settles O6. -/
theorem illFormedTermsAreRefused : Obligations.IllFormedTermsAreRefused :=
  fun s => ⟨fun d => exec_wr_cmd d s, fun _ hc => exec_cmdReserved_of_lt hc s⟩

end Sys2Proof.Machine
end

section
/-! PROOF. The wait, the reset event, the transport's acts, and the invariants at reset (70_reset_and_hazards.md R230,
R231, 42_pulse_codec.md R156, 20_memory.md R74). -/

namespace Sys2Proof.Machine

/-- Settles O8. -/
theorem nothingPendingWaits : Obligations.NothingPendingWaits :=
  fun _ => step_nothingPending

/-- Settles O47: the step takes the event from what is pending, and `resetKirc_eq` is the state it then leaves. -/
theorem resetEventClearsKircAlone : Obligations.ResetEventClearsKircAlone := by
  intro s rest hp
  rw [step_reset hp, resetKirc_eq]

/-- Settles O48: the step of each act, whose definition writes the transport's fields alone. -/
theorem transportActsLeaveKircAlone : Obligations.TransportActsLeaveKircAlone :=
  fun _ _ => ⟨fun _ => step_capture, fun _ => step_receive, step_rewind, fun _ => step_take,
    fun _ => step_transportReset⟩

/-- Settles O50: the cursor is 0. -/
theorem resetCursorIsInBounds : Obligations.ResetCursorIsInBounds :=
  Nat.zero_le _

/-- Settles O52: the queue is empty. -/
theorem resetQueueIsLegal : Obligations.ResetQueueIsLegal :=
  List.forall_mem_nil _

end Sys2Proof.Machine
end

section
/-! PROOF. The range of the checksum's sum, and the layout as a partition of the bits (41_integrity.md R120, R130,
10_state.md R33). -/

namespace Sys2Proof.Machine

/-- `n` nibbles add up to at most fifteen each. -/
theorem sum_nibbles_le (f : Nat → Nibble) (n : Nat) : ((List.range n).map fun i => (f i).toNat).sum ≤ n * 15 := by
  induction n with
  | zero => exact le_rfl
  | succ n ih =>
    have last : (f n).toNat < 16 := (f n).isLt
    rw [List.range_succ, List.map_append, List.sum_append, List.map_singleton, List.sum_singleton]
    omega

/-- The start value is 10, and the seven nibbles add at most 105 (41_integrity.md R120, R130). -/
theorem checksumSum_bounds (B : ProtocolState) (o : Nat) : 10 ≤ checksumSum B o ∧ checksumSum B o ≤ 115 := by
  have low := sum_nibbles_le (fun i => lo4 (byteAt B (o + i))) 4
  have high := sum_nibbles_le (fun i => hi4 (byteAt B (o + 4 + i))) 3
  unfold checksumSum csumStart
  omega

/-- A remainder modulo 16 fits the four bits of `SUM` (41_integrity.md R120). -/
theorem toNat_checksum (B : ProtocolState) (o : Nat) : (checksum B o).toNat = checksumSum B o % 16 := by
  rw [checksum, BitVec.toNat_ofNat]
  exact Nat.mod_mod _ _

/-- Settles O20. -/
theorem checksumSumIsExact : Obligations.ChecksumSumIsExact := fun B o =>
  have ⟨low, high⟩ := checksumSum_bounds B o
  ⟨low, high, toNat_checksum B o⟩

/-- Settles O56, by counting at each of the 128 bits. -/
theorem layoutCoversEveryBitOnce : Obligations.LayoutCoversEveryBitOnce := by
  unfold Obligations.LayoutCoversEveryBitOnce
  decide

end Sys2Proof.Machine
end
